-- ==== Sys2Proof/Word.lean ====
section
/-! DEFINITION. The bit vectors of the HD44780 protocol decoder (spec/00_scope.md R9: bit 0 is the
least significant bit, every value is unsigned). -/

namespace Sys2Proof

/-- An assembled value, "8 bits, unsigned (`u8`)" (R7). -/
abbrev Byte := BitVec 8

/-- Half of a byte, the width of PendingNibble (R22). -/
abbrev Nibble := BitVec 4

/-- One bit per bus line, in the layout of R62: RS 0, CLK 1, D0..D7 at 2..9, RW 10. -/
abbrev LineBits := BitVec 11

/-- The 10-bit classification word `CW = {rs, rw, value[7:0]}` (R66). -/
abbrev CW := BitVec 10

/-- A word as spec/opcode_table.json numbers it: a classification word in bits 9..0, and bit 10,
which only the unreachable Warning row names (R68). -/
abbrev TableWord := BitVec 11

end Sys2Proof
end

