-- ==== Sys2Proof/Syntax.lean ====
section
/-! DEFINITION. The instructions. R2: the "instructions" of this block are the bus transactions it
decodes, one constructor per row of spec/opcode_table.json. Each carries the 8-bit `value` of the
classified transaction, as the spec's own pseudocode does (`ClearDisplay(value)`, R133). Which values a
category admits is WellFormed.lean's. -/

namespace Sys2Proof

inductive Instr where
  /-- Command write with value in [0, 2) (R134). -/
  | clearDisplay (value : Byte)
  /-- Command write with value in [2, 4) (R135). -/
  | returnHome (value : Byte)
  /-- Command write with value in [4, 8) (R136). -/
  | entryModeSet (value : Byte)
  /-- Command write with value in [8, 16) (R137). -/
  | displayControl (value : Byte)
  /-- Command write with value in [16, 32) (R138). -/
  | displayShift (value : Byte)
  /-- Command write with value in [32, 64) (R139). -/
  | functionSet (value : Byte)
  /-- Command write with value in [64, 128) (R140). -/
  | setCGRAMAddress (value : Byte)
  /-- Command write with value in [128, 256) (R141). -/
  | setDDRAMAddress (value : Byte)
  /-- Command read, any value (R132). -/
  | readBusyFlagAndAddressCounter (value : Byte)
  /-- Data write, any value (R144). -/
  | memoryWrite (value : Byte)
  /-- Data read, any value (R143). -/
  | memoryRead (value : Byte)
  /-- The defensive path, which no classification word selects (R142). -/
  | warning (value : Byte)
  deriving DecidableEq, Repr

/-- The value the transaction carries. -/
def Instr.value : Instr → Byte
  | .clearDisplay v => v
  | .returnHome v => v
  | .entryModeSet v => v
  | .displayControl v => v
  | .displayShift v => v
  | .functionSet v => v
  | .setCGRAMAddress v => v
  | .setDDRAMAddress v => v
  | .readBusyFlagAndAddressCounter v => v
  | .memoryWrite v => v
  | .memoryRead v => v
  | .warning v => v

end Sys2Proof
end

