-- ==== Sys2Proof/WellFormed.lean ====
section
/-! DEFINITION. Which values each category admits: the thresholds of R133 as ranges (R134 to R141), every
value on the two read paths and the data write path (R132, R143, R144). -/

namespace Sys2Proof

/-- The value lies in `[lo, hi)`. -/
def valueIn (lo hi : Nat) (v : Byte) : Bool := decide (lo ≤ v.toNat) && decide (v.toNat < hi)

/-- The instruction's value is one its category is selected by. -/
def WellFormed : Instr → Bool
  | .clearDisplay v => valueIn 0 2 v
  | .returnHome v => valueIn 2 4 v
  | .entryModeSet v => valueIn 4 8 v
  | .displayControl v => valueIn 8 16 v
  | .displayShift v => valueIn 16 32 v
  | .functionSet v => valueIn 32 64 v
  | .setCGRAMAddress v => valueIn 64 128 v
  | .setDDRAMAddress v => valueIn 128 256 v
  | .readBusyFlagAndAddressCounter _ => true
  | .memoryWrite _ => true
  | .memoryRead _ => true
  | .warning _ => true

end Sys2Proof
end

