-- ==== Sys2Proof/Decode.lean ====
section
/-! DEFINITION. From a classification word to the instruction it selects (spec/30_encoding.md R65 to R70,
spec/43_command_classifier.md R131 and R133), and back. The decoder is the spec's path selection and
threshold cascade; the opcode map's match and mask columns stand beside it as a table of their own, so
that the two can be held against each other. -/

namespace Sys2Proof

/-- `CW = {rs, rw, value[7:0]}` (R66). -/
def packCW (rs rw : Bool) (value : Byte) : CW := BitVec.ofBool rs ++ BitVec.ofBool rw ++ value

/-- `CW[9]` (R66). -/
def cwRs (cw : CW) : Bool := cw.getLsbD 9

/-- `CW[8]` (R66). -/
def cwRw (cw : CW) : Bool := cw.getLsbD 8

/-- `CW[7:0]` (R66). -/
def cwValue (cw : CW) : Byte := cw.extractLsb' 0 8

/-- The threshold cascade of a command write: the first threshold that holds wins (R133). -/
def commandWrite (value : Byte) : Instr :=
  if value.toNat < 2 then .clearDisplay value
  else if value.toNat < 4 then .returnHome value
  else if value.toNat < 8 then .entryModeSet value
  else if value.toNat < 16 then .displayControl value
  else if value.toNat < 32 then .displayShift value
  else if value.toNat < 64 then .functionSet value
  else if value.toNat < 128 then .setCGRAMAddress value
  else .setDDRAMAddress value

/-- The four classification paths of R131, with rs = 0 command and rw = 0 write (R64). -/
def selectPath (value : Byte) (rs rw : Bool) : Instr :=
  match rs, rw with
  | false, true => .readBusyFlagAndAddressCounter value
  | false, false => commandWrite value
  | true, true => .memoryRead value
  | true, false => .memoryWrite value

/-- The category a classification word selects. Total: no classification word is illegal (R70 item 1). -/
def decodeCW (cw : CW) : Instr := selectPath (cwValue cw) (cwRs cw) (cwRw cw)

/-- Why a number is no word of the opcode table. -/
inductive DecodeError where
  /-- A bit above bit 10 is set: the table's rows name bits 10..0 only (R66, R68). -/
  | bitsBeyondTable
  deriving DecidableEq, Repr

/-- The instruction of a word numbered as spec/opcode_table.json numbers it. Bits 9..0 are a classification
word; bit 10 is the Warning row's alone, which no classification word has set (R68). -/
def decode (w : Nat) : Except DecodeError Instr :=
  if w < 1024 then .ok (decodeCW (BitVec.ofNat 10 w))
  else if w < 2048 then .ok (.warning (BitVec.ofNat 8 w))
  else .error .bitsBeyondTable

/-- The host's question: the instruction the decoder reads from a table word of `nbits` bits. The block
stores no instruction words, so there is no byte order to apply (R40). -/
def decodeTableWord (_nbits w : Nat) : Option Instr :=
  match decode w with
  | .ok i => some i
  | .error _ => none

/-- The two control bits a category's row fixes, `{rs, rw}` (R68). Warning's row fixes neither. -/
def Instr.controlBits : Instr → Bool × Bool
  | .clearDisplay _ => (false, false)
  | .returnHome _ => (false, false)
  | .entryModeSet _ => (false, false)
  | .displayControl _ => (false, false)
  | .displayShift _ => (false, false)
  | .functionSet _ => (false, false)
  | .setCGRAMAddress _ => (false, false)
  | .setDDRAMAddress _ => (false, false)
  | .readBusyFlagAndAddressCounter _ => (false, true)
  | .memoryWrite _ => (true, false)
  | .memoryRead _ => (true, true)
  | .warning _ => (false, false)

/-- Bit 10 of a category's word: set in the Warning row alone (R68). -/
def Instr.isWarning : Instr → Bool
  | .warning _ => true
  | .clearDisplay _ => false
  | .returnHome _ => false
  | .entryModeSet _ => false
  | .displayControl _ => false
  | .displayShift _ => false
  | .functionSet _ => false
  | .setCGRAMAddress _ => false
  | .setDDRAMAddress _ => false
  | .readBusyFlagAndAddressCounter _ => false
  | .memoryWrite _ => false
  | .memoryRead _ => false

/-- The table word of an instruction: its row's fixed bits and its value (R66, R68). -/
def encode (i : Instr) : TableWord :=
  BitVec.ofBool i.isWarning ++ packCW i.controlBits.1 i.controlBits.2 i.value

/-- A row of the opcode map: selected by `(CW & mask) == match` (R66). -/
structure OpcodeRow where
  matchBits : TableWord
  maskBits : TableWord
  deriving DecidableEq, Repr

/-- The opcode map of R68 (and spec/opcode_table.json), one row per category. -/
def Instr.row : Instr → OpcodeRow
  | .clearDisplay _ => ⟨0x000, 0x3FE⟩
  | .returnHome _ => ⟨0x002, 0x3FE⟩
  | .entryModeSet _ => ⟨0x004, 0x3FC⟩
  | .displayControl _ => ⟨0x008, 0x3F8⟩
  | .displayShift _ => ⟨0x010, 0x3F0⟩
  | .functionSet _ => ⟨0x020, 0x3E0⟩
  | .setCGRAMAddress _ => ⟨0x040, 0x3C0⟩
  | .setDDRAMAddress _ => ⟨0x080, 0x380⟩
  | .readBusyFlagAndAddressCounter _ => ⟨0x100, 0x300⟩
  | .memoryWrite _ => ⟨0x200, 0x300⟩
  | .memoryRead _ => ⟨0x300, 0x300⟩
  | .warning _ => ⟨0x400, 0x400⟩

/-- The rows of R68 in its order, each with the constructor it stands for. -/
def opcodeMap : List (Byte → Instr) :=
  [.clearDisplay, .returnHome, .entryModeSet, .displayControl, .displayShift, .functionSet,
   .setCGRAMAddress, .setDDRAMAddress, .readBusyFlagAndAddressCounter, .memoryWrite, .memoryRead,
   .warning]

/-- `(w & mask) == match` for the row of `i` (R66). -/
def Instr.rowSelects (i : Instr) (w : TableWord) : Bool := w &&& i.row.maskBits == i.row.matchBits

end Sys2Proof
end

