-- ==== Sys2Proof/Config.lean ====
section
/-! DEFINITION. The implementation parameters that spec/00_scope.md R8 leaves open. `W_IDX`, `OUT_LAT`
and `P_START4` are plain data that a state carries and no step changes, so a statement about every
state holds for every value of them (notes/assumptions/2.md). `render_labels` is a function, and stands
as an opaque constant. -/

namespace Sys2Proof

/-- The values of `P_START4`: which falling edge stamps the start of a 4-bit transaction (R8, R107). -/
inductive StartStamp where
  | firstNibble
  | secondNibble
  deriving DecidableEq, Repr

/-- The named parameters of R8 that are numbers or names. -/
structure Config where
  /-- `P_START4` (R8, R107). -/
  pStart4 : StartStamp
  /-- `W_IDX`, the width in bits of a sample index on the ports (R8, R41). -/
  wIdx : Nat
  /-- `OUT_LAT`, the block cycles from the rising-edge sample to `a_valid` (R8, R192). -/
  outLat : Nat
  deriving DecidableEq, Repr

namespace Config

/-- The parameters `State.reset` carries. `P_START4 = FirstNibble` is the spec's default (R8).
DESIGN CHOICE (notes/assumptions/2.md): the spec gives `W_IDX` and `OUT_LAT` no default; 64 and 0 here. -/
def default : Config := { pStart4 := .firstNibble, wIdx := 64, outLat := 0 }

/-- `render_labels(a_cat, a_value, a_addr, a_inc, a_shift, a_width8)`, the open parameter of R8 and
R146: the label strings of a record. It has no body: no label string can be proved of it (D12). -/
opaque renderLabels : BitVec 4 → Byte → BitVec 7 → Bool → Bool → Bool → List String

end Config

end Sys2Proof
end

