-- ==== Sys2Proof/Machine/State.lean ====
section
/-! DEFINITION. The state of the block (spec/10_state.md R20 to R37): its six architectural fields, its two
ports as plain data, and the fields the model itself needs to be one deterministic step function
(marked MODEL'S OWN). The block has no memory, no registers named by an instruction and no program
counter (R27, R40). -/

namespace Sys2Proof.Machine

/-- The state of one bus line (R60). -/
inductive LineState where
  | low
  | high
  /-- Indeterminate, `X`. -/
  | indet
  deriving DecidableEq, Repr

/-- One sample, as the named-field record that R12 and R60 make normative. -/
structure Sample where
  idx : Nat
  rs : LineState
  clk : LineState
  d0 : LineState
  d1 : LineState
  d2 : LineState
  d3 : LineState
  d4 : LineState
  d5 : LineState
  d6 : LineState
  d7 : LineState
  rw : LineState
  deriving DecidableEq, Repr

/-- The levels of every input port in one block cycle: `rst` (R32), `cfg_4bit` (R29) and the sample
port (R31). -/
structure BlockCycle where
  rst : Bool
  cfg4bit : Bool
  sValid : Bool
  sIdx : Nat
  sLvl : LineBits
  sKnown : LineBits
  deriving DecidableEq, Repr

/-- The bus-width mode and nibble sub-state (R21). -/
inductive Mode where
  | eightBit
  | fourBitFirstNibble
  | fourBitSecondNibble
  | ignored
  deriving DecidableEq, Repr

/-- The wait point the engine is suspended at (R23). Code `0b11` is occupied by no rule (R70 item 5) and
has no constructor. -/
inductive Phase where
  | waitFall
  | waitRiseSilent
  | waitRiseEmit
  deriving DecidableEq, Repr

/-- The twelve named categories (R67). Codes 12 to 15 are never emitted (R148, R70) and have no
constructor. -/
inductive Category where
  | clearDisplay
  | returnHome
  | entryModeSet
  | displayControl
  | displayShift
  | functionSet
  | setCGRAMAddress
  | setDDRAMAddress
  | readBusyFlagAndAddressCounter
  | memoryRead
  | memoryWrite
  | warning
  deriving DecidableEq, Repr

/-- A classified record: the fields of `t_rec` (R26, 22 bits in all). -/
structure Record where
  cat : Category
  value : Byte
  addr : BitVec 7
  inc : Bool
  shift : Bool
  width8 : Bool
  deriving DecidableEq, Repr

/-- One emitted annotation: a record with the span of its transaction (R33, R110). -/
structure Annotation where
  startIdx : Nat
  endIdx : Nat
  record : Record
  deriving DecidableEq, Repr

/-- The annotation output port (R33). -/
structure AnnPort where
  aValid : Bool
  aStart : Nat
  aEnd : Nat
  aCat : BitVec 4
  aValue : Byte
  aAddr : BitVec 7
  aInc : Bool
  aShift : Bool
  aWidth8 : Bool
  deriving DecidableEq, Repr

/-- The state. -/
structure State where
  /-- The parameters of R8; no step changes them (notes/assumptions/2.md). -/
  params : Config
  /-- `mode` (R21). -/
  mode : Mode
  /-- `pend`, PendingNibble (R22). -/
  pend : Nibble
  /-- `phase` (R23). -/
  phase : Phase
  /-- `prev_clk`: `None`, or the level of the last admitted sample's clock, `true` for high (R24). -/
  prevClk : Option Bool
  /-- `t_start` (R25). -/
  tStart : Nat
  /-- `t_rec` (R26). -/
  tRec : Record
  /-- The annotation output port in the block cycle just run (R33, R34). -/
  out : AnnPort
  /-- MODEL'S OWN: what is on its way to the port, one entry per block cycle of `OUT_LAT`, the next to
  appear first (R192, notes/assumptions/9.md). -/
  outPipe : List (Option Annotation)
  /-- MODEL'S OWN: the run's observation, the records emitted since reset, oldest first (R194). -/
  emitted : List Annotation
  /-- MODEL'S OWN: the last admitted sample's index, for the index-order premise of R166, which the spec
  calls "a premise on the stream, not block state" (notes/assumptions/7.md). -/
  lastIdx : Option Nat
  /-- MODEL'S OWN: what the two collaborators drive on the input ports, one entry per block cycle to
  come, the next first (R3, R31; notes/assumptions/1.md). -/
  inputs : List BlockCycle
  deriving DecidableEq, Repr

/-- Why the machine stops. The block itself raises no exception (R160). -/
inductive Fault where
  /-- Raised by `step` when no block cycle is left in `inputs`: the run has ended (R194), and the spec
  "DOES NOT SAY what the hardware does after the stream stops". Safe: the model stops. -/
  | endOfStream
  deriving DecidableEq, Repr

/-- Why the model gives a sample no meaning: `refuse(reason)` of R163. -/
inductive Refusal where
  /-- Raised by an arm of `exec` that has no meaning yet. Safe. No arm raises it. -/
  | notModelled (mnemonic : String)
  /-- `refuse(ClockIndeterminate)`: a valid sample whose CLK is `X` (R164). Raised by the sample step.
  Safe: nothing can be proved of such a stream. -/
  | clockIndeterminate
  /-- `refuse(CtrlIndeterminate)`: a completion sample whose RS or RW is `X` (R165). Raised by the
  completion. Safe. -/
  | ctrlIndeterminate
  /-- `refuse(IndexOrder)`: an index not above the last admitted one, or too wide for `W_IDX` (R166).
  Raised by the sample step. Safe. -/
  | indexOrder
  deriving DecidableEq, Repr

/-- What a step or a meaning answers. -/
abbrev Result := Host.Outcome State Fault Refusal

/-- The idle output port: `a_valid = 0` and every other output 0 (R34, R35). -/
def AnnPort.idle : AnnPort :=
  { aValid := false, aStart := 0, aEnd := 0, aCat := 0, aValue := 0, aAddr := 0, aInc := false,
    aShift := false, aWidth8 := false }

/-- The record `t_rec` holds after reset. DESIGN CHOICE (notes/assumptions/4.md): the spec leaves it
unspecified (R35); every bit 0 here. -/
def Record.zero : Record :=
  { cat := .clearDisplay, value := 0, addr := 0, inc := false, shift := false, width8 := false }

/-- The block right after reset (R35, R181). DESIGN CHOICE: `cfg_4bit = 0` (notes/assumptions/3.md), and
`pend`, `t_start` and `t_rec`, which the spec leaves unspecified, are 0 (notes/assumptions/4.md). -/
def State.reset : State :=
  { params := Config.default
    mode := .eightBit
    pend := 0
    phase := .waitFall
    prevClk := none
    tStart := 0
    tRec := Record.zero
    out := AnnPort.idle
    outPipe := []
    emitted := []
    lastIdx := none
    inputs := [] }

end Sys2Proof.Machine
end

