-- ==== Sys2Proof/Machine/Flags.lean ====
section
/-! DEFINITION. The one-bit payload fields of a record and the mode FunctionSet writes. The block has no
status flags and no condition codes (R28): these bits are outputs. -/

namespace Sys2Proof.Machine

/-- EntryModeSet's direction, `value[0]`, 1 for `inc` (R136). -/
def entryDirection (value : Byte) : Bool := value.getLsbD 0

/-- EntryModeSet's shift flag: "always reported `false` regardless of bit 1" (R136). -/
def entryShift (_value : Byte) : Bool := false

/-- FunctionSet's width bit `w = value[4]`, 1 for 8-bit (R139). -/
def functionWidth8 (value : Byte) : Bool := value.getLsbD 4

/-- The mode FunctionSet writes (R139). -/
def functionMode (value : Byte) : Mode :=
  if functionWidth8 value then .eightBit else .fourBitFirstNibble

/-- The code of a mode (R21). -/
def Mode.code : Mode → BitVec 2
  | .eightBit => 0b00
  | .fourBitFirstNibble => 0b01
  | .fourBitSecondNibble => 0b10
  | .ignored => 0b11

/-- The code of a phase (R23). -/
def Phase.code : Phase → BitVec 2
  | .waitFall => 0b00
  | .waitRiseSilent => 0b01
  | .waitRiseEmit => 0b10

/-- The category code on `a_cat` (R67). -/
def Category.code : Category → BitVec 4
  | .clearDisplay => 0
  | .returnHome => 1
  | .entryModeSet => 2
  | .displayControl => 3
  | .displayShift => 4
  | .functionSet => 5
  | .setCGRAMAddress => 6
  | .setDDRAMAddress => 7
  | .readBusyFlagAndAddressCounter => 8
  | .memoryRead => 9
  | .memoryWrite => 10
  | .warning => 11

end Sys2Proof.Machine
end

