-- ==== Sys2Proof/Machine/Operands.lean ====
section
/-! DEFINITION. Every operand form of the spec: reading the lines of a sample off the ports (R60 to R62),
the bit sampler (R80 to R85), the nibble of the first sample and the 4-bit reassembly (R102, R103,
R105), and the address fields of a value (R69, R140, R141). -/

namespace Sys2Proof.Machine

/-- The state a line's two port bits code; the level bit of an indeterminate line is ignored (R61). -/
def lineState (known level : Bool) : LineState :=
  match known, level with
  | true, false => .low
  | true, true => .high
  | false, _ => .indet

/-- The sample offered on the ports, lines at the bits of R62. -/
def portSample (c : BlockCycle) : Sample :=
  let line (k : Nat) := lineState (c.sKnown.getLsbD k) (c.sLvl.getLsbD k)
  { idx := c.sIdx
    rs := line 0
    clk := line 1
    d0 := line 2
    d1 := line 3
    d2 := line 4
    d3 := line 5
    d4 := line 6
    d5 := line 7
    d6 := line 8
    d7 := line 9
    rw := line 10 }

/-- `known(x)` with `bit(x)`: the level of a known line, none of an indeterminate one (R10). -/
def LineState.level : LineState → Option Bool
  | .low => some false
  | .high => some true
  | .indet => none

/-- The bit the sampler reads of a data line: `L` and `X` read as 0 (R81, R82). -/
def LineState.dataBit : LineState → Bool
  | .low => false
  | .high => true
  | .indet => false

/-- Eight bits packed into a byte, the last least significant. -/
def packByte (b7 b6 b5 b4 b3 b2 b1 b0 : Bool) : Byte :=
  BitVec.ofBool b7 ++ BitVec.ofBool b6 ++ BitVec.ofBool b5 ++ BitVec.ofBool b4 ++ BitVec.ofBool b3 ++
    BitVec.ofBool b2 ++ BitVec.ofBool b1 ++ BitVec.ofBool b0

/-- `sample_to_byte`: Dk is bit k (R80, R81). -/
def sampleToByte (S : Sample) : Byte :=
  packByte S.d7.dataBit S.d6.dataBit S.d5.dataBit S.d4.dataBit S.d3.dataBit S.d2.dataBit
    S.d1.dataBit S.d0.dataBit

/-- `a[3:0]`, what the first-nibble sample leaves in `pend` (R22, R102). -/
def lowNibble (a : Byte) : Nibble := a.extractLsb' 0 4

/-- `b[7:4]`, what the second-nibble sample contributes (R103). -/
def highNibble (b : Byte) : Nibble := b.extractLsb' 4 4

/-- `zext_8(b[7:4]) + zext_8(pend)`: addition, not a merge (R103, R105). -/
def reassemble (pend : Nibble) (b : Byte) : Byte :=
  (highNibble b).zeroExtend 8 + pend.zeroExtend 8

/-- `zext_7(value & 0x3F)` (R140). -/
def cgramAddress (value : Byte) : BitVec 7 := (value &&& 0x3F#8).truncate 7

/-- `value & 0x7F` (R141). -/
def ddramAddress (value : Byte) : BitVec 7 := (value &&& 0x7F#8).truncate 7

end Sys2Proof.Machine
end

