-- ==== Sys2Proof/Machine/Ops.lean ====
section
/-! DEFINITION. The shared operations: the record of a category, the completion of a transaction, the edge
test, the premises on a sample, the falling- and rising-edge actions that run no instruction, the
annotation port, and reset. The block has no memory operations (R40). Taking an exception and returning
from one do not exist: R160 "The block raises no exception and has no trap mechanism", R170 "there is no
trap entry, no saved state, no trap return". -/

namespace Sys2Proof.Machine

/-! ### Classified records and the completion of a transaction -/

/-- A record of category and value alone: every field a category does not name is 0 (R34). -/
def plainRecord (cat : Category) (value : Byte) : Record :=
  { cat := cat, value := value, addr := 0, inc := false, shift := false, width8 := false }

/-- The state writes of a completion: `mode_wr` if there is one, then `t_rec`, then `phase`
(R100 `complete`, R108). -/
def completeWith (r : Record) (modeWr : Option Mode) (s : State) : Result :=
  .next { s with mode := modeWr.getD s.mode, tRec := r, phase := .waitRiseEmit }

/-! ### The clock-edge detector -/

/-- What the edge test finds (R91). -/
inductive Edge where
  | fall
  | rise
  | noEdge
  deriving DecidableEq, Repr

/-- The edge test; `None` before it is never an edge (R91, R93). -/
def edge (prevClk : Option Bool) (c : Bool) : Edge :=
  match prevClk, c with
  | some true, false => .fall
  | some false, true => .rise
  | some true, true => .noEdge
  | some false, false => .noEdge
  | none, _ => .noEdge

/-! ### The premises on a sample -/

/-- The index is above the last admitted one, if any, and fits in `W_IDX` bits (R166). -/
def indexAdmitted (s : State) (idx : Nat) : Bool :=
  (match s.lastIdx with
    | none => true
    | some n => decide (n < idx)) && decide (idx < 2 ^ s.params.wIdx)

/-! ### Edge actions that run no instruction -/

/-- Falling edge in FourBitFirstNibble (R102). -/
def firstNibbleAction (S : Sample) (s : State) : State :=
  { s with
    tStart := S.idx
    pend := lowNibble (sampleToByte S)
    mode := .fourBitSecondNibble
    phase := .waitRiseSilent }

/-- Falling edge in Ignored: `phase` only (R104). -/
def ignoredAction (s : State) : State := { s with phase := .waitRiseSilent }

/-- The writes of an EightBit falling edge before its completion (R101). -/
def eightBitStart (S : Sample) (s : State) : State := { s with tStart := S.idx }

/-- The writes of a FourBitSecondNibble falling edge before its completion: the start stamp under
`P_START4 = SecondNibble`, and the nibble transition (R103, R107, R108). -/
def secondNibbleStart (S : Sample) (s : State) : State :=
  { s with
    tStart := match s.params.pStart4 with
      | .firstNibble => s.tStart
      | .secondNibble => S.idx
    mode := .fourBitFirstNibble }

/-- A consumed rising edge ends its wait (R109, R110). -/
def resumeWaitFall (s : State) : State := { s with phase := .waitFall }

/-- The annotation a sample with clock level `c` emits: `(t_start, i, t_rec)` at a rising edge in
WaitRiseEmit, else none (R100, R110). -/
def emission (idx : Nat) (c : Bool) (s : State) : Option Annotation :=
  match s.phase, edge s.prevClk c with
  | .waitRiseEmit, .rise => some { startIdx := s.tStart, endIdx := idx, record := s.tRec }
  | .waitRiseEmit, .fall => none
  | .waitRiseEmit, .noEdge => none
  | .waitFall, _ => none
  | .waitRiseSilent, _ => none

/-! ### The annotation port -/

/-- What the port shows for a record, or for none (R33, R34). -/
def drivePort : Option Annotation → AnnPort
  | none => AnnPort.idle
  | some a =>
    { aValid := true
      aStart := a.startIdx
      aEnd := a.endIdx
      aCat := a.record.cat.code
      aValue := a.record.value
      aAddr := a.record.addr
      aInc := a.record.inc
      aShift := a.record.shift
      aWidth8 := a.record.width8 }

/-- One block cycle of the output side: what is emitted now joins the run's observation (R194) and
reaches the port `OUT_LAT` block cycles later (R192). -/
def outputCycle (e : Option Annotation) (s : State) : State :=
  { s with
    out := drivePort ((s.outPipe ++ [e]).headD none)
    outPipe := (s.outPipe ++ [e]).tail
    emitted := s.emitted ++ e.toList }

/-- The end of an admitted sample's step: `prev_clk` (R92), the index premise (R166) and the outputs. -/
def finishSample (idx : Nat) (c : Bool) (e : Option Annotation) (s : State) : State :=
  outputCycle e { s with prevClk := some c, lastIdx := some idx }

/-! ### Reset -/

/-- The mode a configured bus width starts in (R29, R35). -/
def configuredMode (cfg4bit : Bool) : Mode :=
  if cfg4bit then .fourBitFirstNibble else .eightBit

/-- The reset actions (R181). DESIGN CHOICE (notes/assumptions/4.md): `pend`, `t_start` and `t_rec` are
unspecified there and 0 here. -/
def applyReset (cfg4bit : Bool) (s : State) : State :=
  { params := s.params
    mode := configuredMode cfg4bit
    pend := 0
    phase := .waitFall
    prevClk := none
    tStart := 0
    tRec := Record.zero
    out := AnnPort.idle
    outPipe := List.replicate s.params.outLat none
    emitted := []
    lastIdx := none
    inputs := s.inputs }

/-! ### Sequencing -/

/-- Go on with `f` from a next state; a fault or a refusal stands. -/
def thenNext (r : Result) (f : State → State) : Result :=
  match r with
  | .next s => .next (f s)
  | .fault e => .fault e
  | .refused e => .refused e

end Sys2Proof.Machine
end

