-- ==== Sys2Proof/Machine/CommandWrite.lean ====
section
/-! DEFINITION. The command writes (rs = 0, rw = 0): the eight categories of the threshold cascade
(spec/43_command_classifier.md R133 to R141). A meaning is the completion of its transaction: the
record it leaves in `t_rec`, the mode it writes, and the wait for the rising edge (R100, R108). -/

namespace Sys2Proof.Machine

/-- ClearDisplay, code 0 (R134). -/
def execClearDisplay (value : Byte) (s : State) : Result :=
  completeWith (plainRecord .clearDisplay value) none s

/-- ReturnHome, code 1; bit 0 is not decoded (R135). -/
def execReturnHome (value : Byte) (s : State) : Result :=
  completeWith (plainRecord .returnHome value) none s

/-- EntryModeSet, code 2: direction from bit 0, shift always 0 (R136). -/
def execEntryModeSet (value : Byte) (s : State) : Result :=
  completeWith
    { plainRecord .entryModeSet value with inc := entryDirection value, shift := entryShift value }
    none s

/-- DisplayControl, code 3; bits 2..0 are not decoded (R137). -/
def execDisplayControl (value : Byte) (s : State) : Result :=
  completeWith (plainRecord .displayControl value) none s

/-- DisplayShift, code 4; bits 3..0 are not decoded (R138). -/
def execDisplayShift (value : Byte) (s : State) : Result :=
  completeWith (plainRecord .displayShift value) none s

/-- FunctionSet, code 5: bit 4 selects the bus width and writes `mode`, even where the width does not
change (R139). -/
def execFunctionSet (value : Byte) (s : State) : Result :=
  completeWith { plainRecord .functionSet value with width8 := functionWidth8 value }
    (some (functionMode value)) s

/-- SetCGRAMAddress, code 6: `addr = value & 0x3F` (R140). -/
def execSetCGRAMAddress (value : Byte) (s : State) : Result :=
  completeWith { plainRecord .setCGRAMAddress value with addr := cgramAddress value } none s

/-- SetDDRAMAddress, code 7: `addr = value & 0x7F` (R141). -/
def execSetDDRAMAddress (value : Byte) (s : State) : Result :=
  completeWith { plainRecord .setDDRAMAddress value with addr := ddramAddress value } none s

end Sys2Proof.Machine
end

