-- ==== Sys2Proof/Machine/ReadAndData.lean ====
section
/-! DEFINITION. The other paths of R131: the command read (R132), the data read (R143) and the data write
(R144), and the defensive Warning (R142). Each carries its value uninterpreted on the record. -/

namespace Sys2Proof.Machine

/-- ReadBusyFlagAndAddressCounter, code 8; "content not decoded" (R132). -/
def execReadBusyFlagAndAddressCounter (value : Byte) (s : State) : Result :=
  completeWith (plainRecord .readBusyFlagAndAddressCounter value) none s

/-- MemoryRead, code 9; "placeholder label, not decoded" (R143). -/
def execMemoryRead (value : Byte) (s : State) : Result :=
  completeWith (plainRecord .memoryRead value) none s

/-- MemoryWrite, code 10; every value is accepted (R144). -/
def execMemoryWrite (value : Byte) (s : State) : Result :=
  completeWith (plainRecord .memoryWrite value) none s

/-- Warning, code 11, as R142's "(never executed)" pseudocode has it: no classification word decodes to
it, so no step of an admitted stream runs it. -/
def execWarning (value : Byte) (s : State) : Result :=
  completeWith (plainRecord .warning value) none s

end Sys2Proof.Machine
end

