-- ==== Sys2Proof/Machine/Dispatch.lean ====
section
/-! DEFINITION. One arm per instruction, each a direct call of its meaning. -/

namespace Sys2Proof.Machine

def exec (i : Instr) (s : State) : Host.Outcome State Fault Refusal :=
  match i with
  | .clearDisplay value => Sys2Proof.Machine.execClearDisplay value s
  | .returnHome value => Sys2Proof.Machine.execReturnHome value s
  | .entryModeSet value => Sys2Proof.Machine.execEntryModeSet value s
  | .displayControl value => Sys2Proof.Machine.execDisplayControl value s
  | .displayShift value => Sys2Proof.Machine.execDisplayShift value s
  | .functionSet value => Sys2Proof.Machine.execFunctionSet value s
  | .setCGRAMAddress value => Sys2Proof.Machine.execSetCGRAMAddress value s
  | .setDDRAMAddress value => Sys2Proof.Machine.execSetDDRAMAddress value s
  | .readBusyFlagAndAddressCounter value => Sys2Proof.Machine.execReadBusyFlagAndAddressCounter value s
  | .memoryWrite value => Sys2Proof.Machine.execMemoryWrite value s
  | .memoryRead value => Sys2Proof.Machine.execMemoryRead value s
  | .warning value => Sys2Proof.Machine.execWarning value s

end Sys2Proof.Machine
end

