-- ==== Sys2Proof/Machine/Cycle.lean ====
section
/-! DEFINITION. The transaction state machine of spec/42_transaction_state_machine.md R100: what one admitted
sample does, and what one block cycle does. The instruction a completion runs is fetched here, from
the bus: RS, RW and the assembled value form the classification word, and the decoder reads it. -/

namespace Sys2Proof.Machine

/-- `complete(st, S, v)`: refuse an indeterminate RS or RW (R165), else run the instruction that the
classification word `{rs, rw, v}` selects (R65, R66, R100). -/
def completeSample (S : Sample) (v : Byte) (s : State) : Result :=
  match S.rs.level, S.rw.level with
  | some rs, some rw => exec (decodeCW (packCW rs rw v)) s
  | _, _ => .refused .ctrlIndeterminate

/-- `falling_action`, one action per mode (R101 to R104). -/
def fallingAction (S : Sample) (s : State) : Result :=
  match s.mode with
  | .eightBit => completeSample S (sampleToByte S) (eightBitStart S s)
  | .fourBitFirstNibble => .next (firstNibbleAction S s)
  | .fourBitSecondNibble =>
    completeSample S (reassemble s.pend (sampleToByte S)) (secondNibbleStart S s)
  | .ignored => .next (ignoredAction s)

/-- The phase action of R100: each phase consumes one kind of edge and skips the rest (R94). -/
def phaseAction (S : Sample) (c : Bool) (s : State) : Result :=
  match s.phase, edge s.prevClk c with
  | .waitFall, .fall => fallingAction S s
  | .waitRiseSilent, .rise => .next (resumeWaitFall s)
  | .waitRiseEmit, .rise => .next (resumeWaitFall s)
  | .waitFall, .rise => .next s
  | .waitFall, .noEdge => .next s
  | .waitRiseSilent, .fall => .next s
  | .waitRiseSilent, .noEdge => .next s
  | .waitRiseEmit, .fall => .next s
  | .waitRiseEmit, .noEdge => .next s

/-- One offered sample: the refusal checks first (R169 item 1), then edge test and phase action, then
`prev_clk` (R92) and the outputs. DESIGN CHOICE (notes/assumptions/8.md): of a sample that breaks both
premises, the clock's is named. -/
def sampleStep (S : Sample) (s : State) : Result :=
  match S.clk.level with
  | none => .refused .clockIndeterminate
  | some c =>
    if indexAdmitted s S.idx then
      thenNext (phaseAction S c s) (finishSample S.idx c (emission S.idx c s))
    else .refused .indexOrder

/-- One block cycle. `rst` resets and a sample offered beside it is no step (R180); with `s_valid = 0`
nothing but the output side moves (R98). -/
def blockCycle (c : BlockCycle) (s : State) : Result :=
  if c.rst then .next (applyReset c.cfg4bit s)
  else if c.sValid then sampleStep (portSample c) s
  else .next (outputCycle none s)

/-- The port levels of a completion sample in 8-bit mode whose classification word is `cw`: all lines
known, CLK low, index 0 (R62). -/
def fetchCycle (cw : CW) : BlockCycle :=
  { rst := false
    cfg4bit := false
    sValid := true
    sIdx := 0
    sLvl := BitVec.ofBool (cwRw cw) ++ cwValue cw ++ BitVec.ofBool false ++ BitVec.ofBool (cwRs cw)
    sKnown := 0x7FF }

/-- The state in which the next block cycle is the 8-bit completion of `cw`: the clock was high, the
engine waits for a falling edge in EightBit, and the index premise is met (notes/assumptions/12.md). -/
def atCompletionOf (cw : CW) (s : State) : State :=
  { s with
    mode := .eightBit
    phase := .waitFall
    prevClk := some true
    lastIdx := none
    inputs := fetchCycle cw :: s.inputs }

end Sys2Proof.Machine
end

