-- ==== Sys2Proof/Machine/Step.lean ====
section
/-! DEFINITION. The step: one block cycle, taken from the front of what the collaborators drive
(notes/assumptions/1.md). -/

namespace Sys2Proof.Machine

/-- One step is one block cycle. With no cycle left the run has ended (R194, notes/assumptions/5.md). -/
def step (s : State) : Host.Outcome State Fault Refusal :=
  match s.inputs with
  | [] => .fault .endOfStream
  | c :: rest => blockCycle c { s with inputs := rest }

/-- `s` with the table word `w` where the next step takes its instruction: on the bus, as an 8-bit
completion sample. A word with a bit above bit 9 is no classification word and no sample carries it
(R68, R142): nothing is placed and the stream is left empty (notes/assumptions/12.md). -/
def State.withFetchWord (s : State) (_nbits w : Nat) : State :=
  if w < 1024 then atCompletionOf (BitVec.ofNat 10 w) s else { s with inputs := [] }

end Sys2Proof.Machine
end

