-- ==== Sys2Proof/Machine/Classify.lean ====
section
/-! DEFINITION. The classifier as the pseudocode of spec/43_command_classifier.md writes it (R130 to R144):
one function from the value and the two control bits to the record and the mode write. The step does
not call it: it decodes the classification word and runs the instruction's meaning. It is here so that
statements can hold the two against each other, and its arithmetic is the document's own on numbers
("v & 1 == 1", "& 0x3F", "& 0x7F"). -/

namespace Sys2Proof.Machine

/-- `CommandWrite(value)`: the threshold cascade, with each category's record and mode write
(R133 to R141). -/
def classifyCommandWrite (value : Byte) : Record × Option Mode :=
  if value.toNat < 2 then (plainRecord .clearDisplay value, none)
  else if value.toNat < 4 then (plainRecord .returnHome value, none)
  else if value.toNat < 8 then
    ({ plainRecord .entryModeSet value with inc := decide (value.toNat % 2 = 1) }, none)
  else if value.toNat < 16 then (plainRecord .displayControl value, none)
  else if value.toNat < 32 then (plainRecord .displayShift value, none)
  else if value.toNat < 64 then
    if value.toNat / 16 % 2 = 1 then
      ({ plainRecord .functionSet value with width8 := true }, some .eightBit)
    else (plainRecord .functionSet value, some .fourBitFirstNibble)
  else if value.toNat < 128 then
    ({ plainRecord .setCGRAMAddress value with addr := BitVec.ofNat 7 (value.toNat % 64) }, none)
  else ({ plainRecord .setDDRAMAddress value with addr := BitVec.ofNat 7 (value.toNat % 128) }, none)

/-- `classify(value, rs, rw)` (R130, R131). -/
def classify (value : Byte) (rs rw : Bool) : Record × Option Mode :=
  if rs then
    if rw then (plainRecord .memoryRead value, none) else (plainRecord .memoryWrite value, none)
  else if rw then (plainRecord .readBusyFlagAndAddressCounter value, none)
  else classifyCommandWrite value

end Sys2Proof.Machine
end

