-- ==== Sys2Proof/Machine/Labels.lean ====
section
/-! DEFINITION. The annotation sink's side (spec/43_command_classifier.md R146, R147; spec/10_state.md R33):
the tuple it accepts, with the labels that the open parameter `render_labels` gives, and what R147 asks
of a renderer that claims to match the document. The block's ports carry no label (R146). -/

namespace Sys2Proof.Machine

/-- The signature of `render_labels` (R146). -/
abbrev Renderer := BitVec 4 → Byte → BitVec 7 → Bool → Bool → Bool → List String

/-- `render_labels` of a record. -/
def labelsOf (f : Renderer) (r : Record) : List String :=
  f r.cat.code r.value r.addr r.inc r.shift r.width8

/-- The tuple `(start_sample, end_sample, category, label_variants)` the sink accepts (R33). -/
def sinkTuple (a : Annotation) : Nat × Nat × Category × List String :=
  (a.startIdx, a.endIdx, a.record.cat, labelsOf Config.renderLabels a.record)

/-- `text` stands in one of the labels. -/
def Shows (labels : List String) (text : String) : Prop :=
  ∃ l ∈ labels, ∃ pre post : List Char, l.toList = pre ++ text.toList ++ post

/-- The labels of a category do not depend on the value (R147 items 2 and 3). -/
def ValueFree (f : Renderer) (cat : Category) : Prop :=
  ∀ v w : Byte, f cat.code v 0 false false false = f cat.code w 0 false false false

/-- The hexadecimal digit of a nibble, as the document writes them (`0x4B`). -/
def hexDigit (n : Nibble) : Char :=
  if n.toNat < 10 then Char.ofNat (48 + n.toNat) else Char.ofNat (55 + n.toNat)

/-- A byte in the document's hexadecimal form, `0x41`. -/
def hexText (v : Byte) : String :=
  String.ofList ['0', 'x', hexDigit (v.extractLsb' 4 4), hexDigit (v.extractLsb' 0 4)]

/-- A byte in binary, most significant bit first. DESIGN CHOICE (notes/assumptions/13.md): R147 item 8 gives no
digit count and no prefix; here it is the text of all eight digits, leading zeros included. -/
def binaryText (v : Byte) : String :=
  String.ofList ((List.range 8).map fun k => if v.getLsbD (7 - k) then '1' else '0')

/-- R147: the constraints on a renderer that claims to match the document, items 1 to 8. DEDUCED
(notes/assumptions/13.md): "names" and "shows" are read as text standing in one of the labels, the
address in the form of §1's example; the character part of a MemoryWrite label is asked for where the
byte is printable ASCII only, since it is open elsewhere (spec/93_implementation_defined.md item 1).
DESIGN CHOICE (notes/assumptions/13.md): R147 does not say over which arguments its items bind. Item 1 is
asked for all arguments, and items 4 to 6 for every value with every direction, width and address, also
pairs no classified record has, so a renderer that reads these from `a_value` alone does not match. -/
structure RendererMatchesDocument (f : Renderer) : Prop where
  /-- Item 1: 2 to 4 strings, the last one character. -/
  countAndLast : ∀ c v a i s w, 2 ≤ (f c v a i s w).length ∧ (f c v a i s w).length ≤ 4 ∧
    ∃ last, (f c v a i s w).getLast? = some last ∧ last.length = 1
  /-- Item 1: "from most to least verbose". -/
  verbosityOrder : ∀ c v a i s w, (f c v a i s w).Pairwise (fun x y => y.length ≤ x.length)
  /-- Item 2. -/
  busyFlagFixed : ValueFree f .readBusyFlagAndAddressCounter
  /-- Item 3. -/
  displayControlPlaceholder : ValueFree f .displayControl
  /-- Item 3. -/
  displayShiftPlaceholder : ValueFree f .displayShift
  /-- Item 3. -/
  memoryReadPlaceholder : ValueFree f .memoryRead
  /-- Item 4: the direction, and shift `false`. -/
  entryModeDirection : ∀ v i, Shows (f Category.entryModeSet.code v 0 i false false)
      (if i then "inc" else "dec") ∧
    Shows (f Category.entryModeSet.code v 0 i false false) "false"
  /-- Item 5. -/
  functionSetWidth : ∀ v w, Shows (f Category.functionSet.code v 0 false false w)
    (if w then "8-bit" else "4-bit")
  /-- Item 6. -/
  cgramAddressShown : ∀ v a, Shows (f Category.setCGRAMAddress.code v a false false false)
    (hexText (a.zeroExtend 8))
  /-- Item 6. -/
  ddramAddressShown : ∀ v a, Shows (f Category.setDDRAMAddress.code v a false false false)
    (hexText (a.zeroExtend 8))
  /-- Item 7: the byte in hexadecimal. -/
  memoryWriteHex : ∀ v, Shows (f Category.memoryWrite.code v 0 false false false) (hexText v)
  /-- Item 7: the byte as an ASCII character. -/
  memoryWriteChar : ∀ v : Byte, 32 ≤ v.toNat → v.toNat < 127 →
    Shows (f Category.memoryWrite.code v 0 false false false)
      (String.ofList ['\'', Char.ofNat v.toNat, '\''])
  /-- Item 8. -/
  warningBinary : ∀ v, Shows (f Category.warning.code v 0 false false false) (binaryText v)

end Sys2Proof.Machine
end

