-- ==== Sys2Proof/Machine/Stream.lean ====
section
/-! DEFINITION. The stream notation of spec/30_encoding.md R72 and its pseudo-instructions (R73), as a
builder of block cycles. -/

namespace Sys2Proof.Machine

/-- The data lines of a sample in the notation: level and known bits, D0 at bit 0. A byte in hexadecimal
is all known; an `X` is a clear known bit (R72). -/
structure DataLines where
  level : Byte
  known : Byte
  deriving DecidableEq, Repr

/-- A byte in hexadecimal: "`0x41`, all lines known" (R72). -/
def DataLines.ofByte (v : Byte) : DataLines := { level := v, known := 0xFF }

/-- `{n,XXXX}`: a nibble on D7..D4, with D3..D0 indeterminate (R73). -/
def DataLines.highOnly (n : Nibble) : DataLines := { level := n ++ 0#4, known := 0xF0 }

/-- One line of the notation. -/
inductive StreamItem where
  /-- `.cfg 8bit` or `.cfg 4bit` (`true`): the reset that starts the stream. -/
  | cfg (fourBit : Bool)
  /-- `.at N`. -/
  | setIndex (n : Nat)
  /-- `smp rs clk d rw`. -/
  | smp (rs clk : LineState) (d : DataLines) (rw : LineState)
  deriving DecidableEq, Repr

/-- The level of a control bit. -/
def bitLine (b : Bool) : LineState := if b then .high else .low

/-- `s_lvl` bit of a line; an `X` is written with level 0. -/
def LineState.lvlBit : LineState → Bool
  | .low => false
  | .high => true
  | .indet => false

/-- `s_known` bit of a line (R61). -/
def LineState.knownBit : LineState → Bool
  | .low => true
  | .high => true
  | .indet => false

/-- The port levels of `smp rs clk d rw` at index `n` (R62). -/
def smpCycle (cfg4bit : Bool) (n : Nat) (rs clk : LineState) (d : DataLines) (rw : LineState) :
    BlockCycle :=
  { rst := false
    cfg4bit := cfg4bit
    sValid := true
    sIdx := n
    sLvl := BitVec.ofBool rw.lvlBit ++ d.level ++ BitVec.ofBool clk.lvlBit ++ BitVec.ofBool rs.lvlBit
    sKnown :=
      BitVec.ofBool rw.knownBit ++ d.known ++ BitVec.ofBool clk.knownBit ++
        BitVec.ofBool rs.knownBit }

/-- A cycle with `rst` asserted, no sample offered. -/
def resetCycle (cfg4bit : Bool) : BlockCycle :=
  { rst := true, cfg4bit := cfg4bit, sValid := false, sIdx := 0, sLvl := 0, sKnown := 0 }

/-- The block cycles of a stream whose next index is `n`: "each sample's index is the previous index
plus 1, and the first index is 0" (R72). -/
def assembleFrom (cfg4bit : Bool) (n : Nat) : List StreamItem → List BlockCycle
  | [] => []
  | .cfg f :: rest => resetCycle f :: assembleFrom f 0 rest
  | .setIndex m :: rest => assembleFrom cfg4bit m rest
  | .smp rs clk d rw :: rest => smpCycle cfg4bit n rs clk d rw :: assembleFrom cfg4bit (n + 1) rest

/-- The block cycles of a stream. -/
def assemble (items : List StreamItem) : List BlockCycle := assembleFrom false 0 items

/-- `idle`: `smp 0 1 0x00 0` (R72). -/
def idle : List StreamItem := [.smp .low .high (.ofByte 0) .low]

/-- `cyc rs rw d`: one clock cycle (R72). -/
def cyc (rs rw : LineState) (d : DataLines) : List StreamItem :=
  [.smp rs .low d rw, .smp rs .high d rw]

/-- `cmd v` (R73). -/
def cmd (v : Byte) : List StreamItem := cyc .low .low (.ofByte v)

/-- `dat v` (R73). -/
def dat (v : Byte) : List StreamItem := cyc .high .low (.ofByte v)

/-- `rdbf` (R73). -/
def rdbf : List StreamItem := cyc .low .high (.ofByte 0)

/-- `rdmem` (R73). -/
def rdmem : List StreamItem := cyc .high .high (.ofByte 0)

/-- `raw4 rs rw a b`: two 4-bit cycles with the given full bytes (R73). -/
def raw4 (rs rw : LineState) (a b : Byte) : List StreamItem :=
  cyc rs rw (.ofByte a) ++ cyc rs rw (.ofByte b)

/-- `send4 rs rw v`: high nibble first on D7..D4, D3..D0 indeterminate (R73). -/
def send4 (rs rw : LineState) (v : Byte) : List StreamItem :=
  cyc rs rw (.highOnly (v.extractLsb' 4 4)) ++ cyc rs rw (.highOnly (v.extractLsb' 0 4))

/-- A stream in the notation placed on the input ports. -/
def State.withStream (s : State) (items : List StreamItem) : State :=
  { s with inputs := assemble items }

end Sys2Proof.Machine
end

