-- ==== Sys2Proof/Safety.lean ====
section
/-! DEFINITION. The terms that statements about this machine use: its runs, the invariants the spec gives
(R37, R50), what a record of the classifier looks like (R34, R145), which fields a later step reads
(R113, R184), the duties of the sample source (R193), and the streams that hold only clock transitions
(R97). -/

namespace Sys2Proof.Machine

/-- `k` steps from `s`, stopping at the first fault or refusal: the host's run of this machine. -/
def runSteps (k : Nat) (s : State) : Result := Host.Core.run Sys2Proof.core k s

/-- `k` steps from `s` end in the next state `t`. -/
def RunsTo (k : Nat) (s t : State) : Prop := runSteps k s = .next t

/-- All the block cycles on the input ports run, and the run ends in `t`. -/
def RunsOut (s t : State) : Prop := RunsTo s.inputs.length s t

/-- No `rst` among the next `k` block cycles. -/
def NoResetIn (k : Nat) (s : State) : Prop := ∀ c ∈ s.inputs.take k, c.rst = false

/-- A 4-bit bus mode (R21). -/
def Mode.isFourBit : Mode → Bool
  | .eightBit => false
  | .fourBitFirstNibble => true
  | .fourBitSecondNibble => true
  | .ignored => false

/-- A record that the classifier gives for some value and control bits (R130, R145). -/
def Classified (r : Record) : Prop := ∃ v rs rw, r = (classify v rs rw).1

/-- The next block cycle offers the sample `S`, with clock level `c` and an admitted index (R164, R166), and
`rest` is what the collaborators drive after it. -/
def Offers (s : State) (S : Sample) (c : Bool) (rest : List BlockCycle) : Prop :=
  ∃ cyc, s.inputs = cyc :: rest ∧ cyc.rst = false ∧ cyc.sValid = true ∧ portSample cyc = S ∧
    S.clk.level = some c ∧ (∀ n, s.lastIdx = some n → n < S.idx) ∧ S.idx < 2 ^ s.params.wIdx

/-- A completion sample for a mode, a phase and a clock level before it: a falling edge consumed in EightBit or
FourBitSecondNibble (R101, R103, R165). -/
def CompletesAt (mode : Mode) (phase : Phase) (prevClk : Option Bool) (S : Sample) : Prop :=
  phase = .waitFall ∧ prevClk = some true ∧ S.clk = .low ∧
    (mode = .eightBit ∨ mode = .fourBitSecondNibble)

/-- A completion sample in a state. -/
def IsCompletion (s : State) (S : Sample) : Prop := CompletesAt s.mode s.phase s.prevClk S

/-- The start stamp of the transaction in progress is no later than the last admitted sample. -/
def StartSeen (s : State) : Prop := ∃ n, s.lastIdx = some n ∧ s.tStart ≤ n

/-- What holds "in every state reached from reset by admitted steps" (R37). The last three fields are the
model's own: they bound `t_start` between the two nibbles, tie the index premise to `prev_clk`, and fix
the length of the output pipe. -/
structure Inv (s : State) : Prop where
  /-- R37 item 1. -/
  notIgnored : s.mode ≠ .ignored
  /-- R37 item 2. -/
  waitingClockLow : s.phase ≠ .waitFall → s.prevClk = some false
  /-- R37 item 3. -/
  secondNibblePhase : s.mode = .fourBitSecondNibble → s.phase = .waitRiseSilent ∨ s.phase = .waitFall
  /-- R37 item 4. -/
  pendingRecord : s.phase = .waitRiseEmit → Classified s.tRec ∧ StartSeen s
  secondNibbleStart : s.mode = .fourBitSecondNibble → StartSeen s
  clockSeen : s.prevClk = none ↔ s.lastIdx = none
  /-- The output latency is `OUT_LAT` (R192). -/
  latency : s.outPipe.length = s.params.outLat

/-- The output order of R50, with what it needs of the transaction in progress: the records emitted so
far end at or before the last admitted sample, and before the start of the one in progress. -/
structure OutputOrdered (s : State) : Prop where
  spans : ∀ a ∈ s.emitted, a.startIdx < a.endIdx
  successive : s.emitted.Pairwise fun a b => a.endIdx < b.startIdx
  seen : ∀ a ∈ s.emitted, ∃ n, s.lastIdx = some n ∧ a.endIdx ≤ n
  beforePending : s.phase = .waitRiseEmit ∨ s.mode = .fourBitSecondNibble →
    ∀ a ∈ s.emitted, a.endIdx < s.tStart

/-- Every record emitted, on its way to the port or waiting for its rising edge is one the classifier
gives, and the port shows such a record or nothing (R34, R142, R148). -/
structure OutputsClassified (s : State) : Prop where
  emitted : ∀ a ∈ s.emitted, Classified a.record
  onTheWay : ∀ a, some a ∈ s.outPipe → Classified a.record
  pending : s.phase = .waitRiseEmit → Classified s.tRec
  port : s.out = AnnPort.idle ∨ ∃ a, Classified a.record ∧ s.out = drivePort (some a)

/-- Two states that differ at most in `pend`, `t_start` and `t_rec`, and in each of these only where no
rule reads it before it is written again (R35, R113). -/
structure AgreeWhereRead (s t : State) : Prop where
  params : s.params = t.params
  mode : s.mode = t.mode
  phase : s.phase = t.phase
  prevClk : s.prevClk = t.prevClk
  out : s.out = t.out
  outPipe : s.outPipe = t.outPipe
  emitted : s.emitted = t.emitted
  lastIdx : s.lastIdx = t.lastIdx
  inputs : s.inputs = t.inputs
  pend : s.mode = .fourBitSecondNibble → s.pend = t.pend
  tStart : s.mode = .fourBitSecondNibble ∨ s.phase = .waitRiseEmit → s.tStart = t.tStart
  tRec : s.phase = .waitRiseEmit → s.tRec = t.tRec

/-- Two answers of the machine that agree: next states where read, the same fault, the same refusal. -/
def ResultsAgree : Result → Result → Prop
  | .next s, .next t => AgreeWhereRead s t
  | .fault e, .fault f => e = f
  | .refused e, .refused f => e = f
  | _, _ => False

/-- What the sample source must follow to know its duties: which sample is a completion sample (R165) and which
index comes next (R166). -/
structure Followed where
  mode : Mode
  phase : Phase
  prevClk : Option Bool
  lastIdx : Option Nat
  deriving DecidableEq, Repr

/-- What a state holds of it. -/
def State.followed (s : State) : Followed :=
  { mode := s.mode, phase := s.phase, prevClk := s.prevClk, lastIdx := s.lastIdx }

/-- What a reset leaves of it (R181). -/
def Followed.start (cfg4bit : Bool) : Followed :=
  { mode := configuredMode cfg4bit, phase := .waitFall, prevClk := none, lastIdx := none }

/-- The mode and phase after a consumed falling edge: in EightBit a FunctionSet byte selects the mode (R101, R139);
in the 4-bit modes the nibbles alternate, since no FunctionSet is decoded there (R102, R103, R114); Ignored
stays (R104). -/
def modeAndPhaseAfterFall (mode : Mode) (S : Sample) : Mode × Phase :=
  match mode with
  | .eightBit =>
    (if S.rs = .low ∧ S.rw = .low ∧ 32 ≤ (sampleToByte S).toNat ∧ (sampleToByte S).toNat < 64 then
      functionMode (sampleToByte S) else .eightBit, .waitRiseEmit)
  | .fourBitFirstNibble => (.fourBitSecondNibble, .waitRiseSilent)
  | .fourBitSecondNibble => (.fourBitFirstNibble, .waitRiseEmit)
  | .ignored => (.ignored, .waitRiseSilent)

/-- What follows an admitted sample with clock level `b` (R92, R94). -/
def Followed.next (f : Followed) (S : Sample) (b : Bool) : Followed :=
  let consumed : Mode × Phase :=
    if f.phase = .waitFall ∧ edge f.prevClk b = .fall then modeAndPhaseAfterFall f.mode S
    else if f.phase ≠ .waitFall ∧ edge f.prevClk b = .rise then (f.mode, .waitFall)
    else (f.mode, f.phase)
  { mode := consumed.1, phase := consumed.2, prevClk := some b, lastIdx := some S.idx }

/-- The sample source's duties on a stream (R193): CLK is known, indices rise from the last one and fit `w` bits,
and RS and RW are known at completion samples. Other samples' RS and RW are free (R165), and so are all
data lines, gaps and resets. -/
def SourceMeetsDuty (w : Nat) : Followed → List BlockCycle → Prop
  | _, [] => True
  | f, c :: cs =>
    if c.rst then SourceMeetsDuty w (Followed.start c.cfg4bit) cs
    else if c.sValid then
      match (portSample c).clk.level with
      | none => False
      | some b =>
        (∀ n, f.lastIdx = some n → n < c.sIdx) ∧ c.sIdx < 2 ^ w ∧
          (CompletesAt f.mode f.phase f.prevClk (portSample c) →
            (portSample c).rs ≠ .indet ∧ (portSample c).rw ≠ .indet) ∧
          SourceMeetsDuty w (f.next (portSample c) b) cs
    else SourceMeetsDuty w f cs

/-- A stream without the cycles that offer no sample and the samples at the clock level before them: only
the first sample after a reset, the transitions and the resets are left (R97, R98). -/
def transitionsOnly : Option Bool → List BlockCycle → List BlockCycle
  | _, [] => []
  | prev, c :: cs =>
    if c.rst then c :: transitionsOnly none cs
    else if c.sValid then
      match (portSample c).clk.level with
      | none => c :: transitionsOnly prev cs
      | some b => if prev = some b then transitionsOnly prev cs else c :: transitionsOnly (some b) cs
    else transitionsOnly prev cs

end Sys2Proof.Machine
end

