-- ==== Sys2Proof/Certificates/Slice0/Obligations.lean ====
section
/-! DEFINITION. The statements for the provers. -/

open Sys2Proof Sys2Proof.Machine

/-- Twelve words, one per row of the opcode map, laid out bit by bit as {rs, rw, value}, and the
three words of section 2.4, decode to the instruction their row names. That a word with bit 10 set
is the Warning row's with bits 7..0 as its value, and that a word with a bit above bit 10 is
rejected by name, is the model's choice (notes/assumptions/11.md): R68 gives the Warning row its bit
10 and no value. Derived from 30_encoding.md R68; 95_test_vectors.md section 2.4. -/
def Obligations.DecodeReadsSpecEncodings : Prop :=
  decode 0b00_00000001 = .ok (.clearDisplay 0x01) ∧ decode 0b00_00000010 = .ok (.returnHome 0x02) ∧
  decode 0b00_00000111 = .ok (.entryModeSet 0x07) ∧ decode 0b00_00001100 = .ok (.displayControl 0x0C) ∧
  decode 0b00_00011000 = .ok (.displayShift 0x18) ∧ decode 0b00_00111000 = .ok (.functionSet 0x38) ∧
  decode 0b00_01100000 = .ok (.setCGRAMAddress 0x60) ∧
  decode 0b00_11001011 = .ok (.setDDRAMAddress 0xCB) ∧
  decode 0b01_00111000 = .ok (.readBusyFlagAndAddressCounter 0x38) ∧
  decode 0b10_00101000 = .ok (.memoryWrite 0x28) ∧ decode 0b11_11111111 = .ok (.memoryRead 0xFF) ∧
  decode 0b1_00_01000001 = .ok (.warning 0x41) ∧ decode 0x800 = .error .bitsBeyondTable

/-- For every well-formed instruction, with its value at every value its category admits, the decoder
reads from its encoded word that instruction, and so does the host's decodeTableWord. Derived from
30_encoding.md R66; 30_encoding.md R68. -/
def Obligations.DecodeOfEncodeIsTheInstruction : Prop :=
  ∀ i : Instr, WellFormed i = true →
    decode (encode i).toNat = .ok i ∧ ∀ nbits, decodeTableWord nbits (encode i).toNat = some i

/-- For every one of the 1024 classification words, the decoded instruction is well formed and encodes
to the same word: the decoder drops no bit. Derived from 30_encoding.md R66; 30_encoding.md R70. -/
def Obligations.EncodeOfDecodeIsTheWord : Prop :=
  ∀ cw : CW, WellFormed (decodeCW cw) = true ∧ (encode (decodeCW cw)).toNat = cw.toNat

/-- For every (value, rs, rw), of the twelve rows of the opcode map exactly the row of the decoded
category matches the word by (CW & mask) == match, and that category is one of the eleven reachable
ones, never Warning. Formalises R145. -/
def Obligations.EveryWordSelectsExactlyOneCategory : Prop :=
  ∀ (v : Byte) (rs rw : Bool),
    (∀ mk ∈ opcodeMap,
      (mk v).rowSelects (0#1 ++ packCW rs rw v) = true ↔ decodeCW (packCW rs rw v) = mk v) ∧
    (∃ mk ∈ opcodeMap.take 11, decodeCW (packCW rs rw v) = mk v) ∧
    ∀ w, decodeCW (packCW rs rw v) ≠ .warning w

/-- The four codes (known, level) are L, H and twice X; RS is read from bit 0 of s_known and s_lvl,
CLK from bit 1, Dk from bit 2 + k, RW from bit 10, and the index is s_idx; s_lvl 0x004 with s_known
0x7FF is RS, CLK and RW low with data 0x01; and two block cycles with the same index, the same known
bits and the same levels on the known lines offer the same sample. Formalises R61, R62. -/
def Obligations.LineStateCodesOnThePorts : Prop :=
  (lineState true false = .low ∧ lineState true true = .high ∧
    lineState false false = .indet ∧ lineState false true = .indet) ∧
  (∀ c : BlockCycle, portSample c =
    { idx := c.sIdx
      rs := lineState (c.sKnown.getLsbD 0) (c.sLvl.getLsbD 0)
      clk := lineState (c.sKnown.getLsbD 1) (c.sLvl.getLsbD 1)
      d0 := lineState (c.sKnown.getLsbD 2) (c.sLvl.getLsbD 2)
      d1 := lineState (c.sKnown.getLsbD 3) (c.sLvl.getLsbD 3)
      d2 := lineState (c.sKnown.getLsbD 4) (c.sLvl.getLsbD 4)
      d3 := lineState (c.sKnown.getLsbD 5) (c.sLvl.getLsbD 5)
      d4 := lineState (c.sKnown.getLsbD 6) (c.sLvl.getLsbD 6)
      d5 := lineState (c.sKnown.getLsbD 7) (c.sLvl.getLsbD 7)
      d6 := lineState (c.sKnown.getLsbD 8) (c.sLvl.getLsbD 8)
      d7 := lineState (c.sKnown.getLsbD 9) (c.sLvl.getLsbD 9)
      rw := lineState (c.sKnown.getLsbD 10) (c.sLvl.getLsbD 10) }) ∧
  (∀ c : BlockCycle, c.sLvl = 0x004 → c.sKnown = 0x7FF →
    portSample c =
      { idx := c.sIdx, rs := .low, clk := .low, d0 := .high, d1 := .low, d2 := .low, d3 := .low,
        d4 := .low, d5 := .low, d6 := .low, d7 := .low, rw := .low }) ∧
  ∀ c d : BlockCycle, c.sIdx = d.sIdx → c.sKnown = d.sKnown →
    c.sLvl &&& c.sKnown = d.sLvl &&& d.sKnown → portSample c = portSample d

/-- Bit k of the assembled byte is 1 exactly where Dk is high, for each k of 0 to 7; and on the ports
the byte is s_lvl[9:2] & s_known[9:2]. Formalises R81. -/
def Obligations.SamplerReadsKnownHighDataLines : Prop :=
  (∀ S : Sample,
    (sampleToByte S).getLsbD 0 = decide (S.d0 = .high) ∧ (sampleToByte S).getLsbD 1 = decide (S.d1 = .high) ∧
    (sampleToByte S).getLsbD 2 = decide (S.d2 = .high) ∧ (sampleToByte S).getLsbD 3 = decide (S.d3 = .high) ∧
    (sampleToByte S).getLsbD 4 = decide (S.d4 = .high) ∧ (sampleToByte S).getLsbD 5 = decide (S.d5 = .high) ∧
    (sampleToByte S).getLsbD 6 = decide (S.d6 = .high) ∧ (sampleToByte S).getLsbD 7 = decide (S.d7 = .high)) ∧
  ∀ c : BlockCycle,
    sampleToByte (portSample c) = c.sLvl.extractLsb' 2 8 &&& c.sKnown.extractLsb' 2 8

/-- For every first-nibble byte a and second-nibble byte b: the value is (b >> 4) + (a & 0xF) without
wrapping, lies in 0..30, has bit 4 set exactly when the sum is 16 or more and bits 7..5 clear, and
equals the merge of b[7:4] above a[3:0] only where b[7:4] is 0. Formalises R105. -/
def Obligations.ReassemblyAddsTheNibbles : Prop :=
  ∀ a b : Byte,
    (reassemble (lowNibble a) b).toNat = b.toNat / 16 + a.toNat % 16 ∧
    (reassemble (lowNibble a) b).toNat ≤ 30 ∧
    ((reassemble (lowNibble a) b).getLsbD 4 = true ↔ 16 ≤ b.toNat / 16 + a.toNat % 16) ∧
    (reassemble (lowNibble a) b).extractLsb' 5 3 = 0 ∧
    (reassemble (lowNibble a) b = b.extractLsb' 4 4 ++ a.extractLsb' 0 4 ↔ b.toNat / 16 = 0)

/-- Fall exactly from Some(1) to 0, Rise exactly from Some(0) to 1, NoEdge otherwise, None included.
Formalises R91. -/
def Obligations.EdgeTestTable : Prop :=
  ∀ (p : Option Bool) (c : Bool),
    (edge p c = .fall ↔ p = some true ∧ c = false) ∧ (edge p c = .rise ↔ p = some false ∧ c = true) ∧
    (edge p c = .noEdge ↔ p = none ∨ p = some c)

/-- Code 0; selected by a command write with value in [0, 2), which are the words matching 0x000 under
mask 0x3FE; from every state it answers the state with its record in t_rec, every field it does not
use 0, phase WaitRiseEmit, and everything else unchanged. Formalises R134. -/
def Obligations.ClearDisplayResult : Prop :=
  Category.clearDisplay.code = 0 ∧
  (∀ cw : CW, decodeCW cw = .clearDisplay (cwValue cw) ↔ cw &&& 0x3FE = 0x000) ∧
  (∀ v : Byte, 0 ≤ v.toNat → v.toNat < 2 → decodeCW (packCW false false v) = .clearDisplay v) ∧
  (∀ (v : Byte) (s : State), exec (.clearDisplay v) s = .next
    { s with
      tRec := { cat := .clearDisplay, value := v, addr := 0, inc := false, shift := false, width8 := false }
      phase := .waitRiseEmit })

/-- Code 1; selected by a command write with value in [2, 4), which are the words matching 0x002 under
mask 0x3FE; from every state it answers the state with its record in t_rec, every field it does not
use 0, phase WaitRiseEmit, and everything else unchanged. Formalises R135. -/
def Obligations.ReturnHomeResult : Prop :=
  Category.returnHome.code = 1 ∧
  (∀ cw : CW, decodeCW cw = .returnHome (cwValue cw) ↔ cw &&& 0x3FE = 0x002) ∧
  (∀ v : Byte, 2 ≤ v.toNat → v.toNat < 4 → decodeCW (packCW false false v) = .returnHome v) ∧
  (∀ (v : Byte) (s : State), exec (.returnHome v) s = .next
    { s with
      tRec := { cat := .returnHome, value := v, addr := 0, inc := false, shift := false, width8 := false }
      phase := .waitRiseEmit })

/-- Code 2; selected by a command write with value in [4, 8), which are the words matching 0x004 under
mask 0x3FC; from every state it answers the state with its record in t_rec, every field it does not
use 0, phase WaitRiseEmit, and everything else unchanged. Direction inc is value bit 0; shift is 0
whatever bit 1 is. Formalises R136. -/
def Obligations.EntryModeSetResult : Prop :=
  Category.entryModeSet.code = 2 ∧
  (∀ cw : CW, decodeCW cw = .entryModeSet (cwValue cw) ↔ cw &&& 0x3FC = 0x004) ∧
  (∀ v : Byte, 4 ≤ v.toNat → v.toNat < 8 → decodeCW (packCW false false v) = .entryModeSet v) ∧
  (∀ (v : Byte) (s : State), exec (.entryModeSet v) s = .next
    { s with
      tRec := { cat := .entryModeSet, value := v, addr := 0, inc := decide (v.toNat % 2 = 1), shift := false, width8 := false }
      phase := .waitRiseEmit })

/-- Code 3; selected by a command write with value in [8, 16), which are the words matching 0x008 under
mask 0x3F8; from every state it answers the state with its record in t_rec, every field it does not
use 0, phase WaitRiseEmit, and everything else unchanged. The labels of a renderer that matches the
document do not depend on the value. Formalises R137. -/
def Obligations.DisplayControlResult : Prop :=
  Category.displayControl.code = 3 ∧
  (∀ cw : CW, decodeCW cw = .displayControl (cwValue cw) ↔ cw &&& 0x3F8 = 0x008) ∧
  (∀ v : Byte, 8 ≤ v.toNat → v.toNat < 16 → decodeCW (packCW false false v) = .displayControl v) ∧
  (∀ (v : Byte) (s : State), exec (.displayControl v) s = .next
    { s with
      tRec := { cat := .displayControl, value := v, addr := 0, inc := false, shift := false, width8 := false }
      phase := .waitRiseEmit }) ∧
  (∀ f, RendererMatchesDocument f → ∀ v w : Byte,
    labelsOf f (plainRecord .displayControl v) = labelsOf f (plainRecord .displayControl w))

/-- Code 4; selected by a command write with value in [16, 32), which are the words matching 0x010 under
mask 0x3F0; from every state it answers the state with its record in t_rec, every field it does not
use 0, phase WaitRiseEmit, and everything else unchanged. The labels of a renderer that matches the
document do not depend on the value. Formalises R138. -/
def Obligations.DisplayShiftResult : Prop :=
  Category.displayShift.code = 4 ∧
  (∀ cw : CW, decodeCW cw = .displayShift (cwValue cw) ↔ cw &&& 0x3F0 = 0x010) ∧
  (∀ v : Byte, 16 ≤ v.toNat → v.toNat < 32 → decodeCW (packCW false false v) = .displayShift v) ∧
  (∀ (v : Byte) (s : State), exec (.displayShift v) s = .next
    { s with
      tRec := { cat := .displayShift, value := v, addr := 0, inc := false, shift := false, width8 := false }
      phase := .waitRiseEmit }) ∧
  (∀ f, RendererMatchesDocument f → ∀ v w : Byte,
    labelsOf f (plainRecord .displayShift v) = labelsOf f (plainRecord .displayShift w))

/-- Code 5; selected by a command write with value in [32, 64), which are the words matching 0x020
under mask 0x3E0; from every state it answers the state with its record in t_rec, every field it
does not use 0, phase WaitRiseEmit, mode written from value bit 4, and everything else unchanged. A
renderer that matches the document names the selected width. That a renderer names the width as the
text 8-bit or 4-bit in a label is the model's reading (notes/assumptions/13.md). Derived from
43_command_classifier.md R139; 43_command_classifier.md R147. -/
def Obligations.FunctionSetResult : Prop :=
  Category.functionSet.code = 5 ∧
  (∀ cw : CW, decodeCW cw = .functionSet (cwValue cw) ↔ cw &&& 0x3E0 = 0x020) ∧
  (∀ v : Byte, 32 ≤ v.toNat → v.toNat < 64 → decodeCW (packCW false false v) = .functionSet v) ∧
  (∀ (v : Byte) (s : State), exec (.functionSet v) s = .next
    { s with
      mode := if v.getLsbD 4 then .eightBit else .fourBitFirstNibble
      tRec := { cat := .functionSet, value := v, addr := 0, inc := false, shift := false, width8 := v.getLsbD 4 }
      phase := .waitRiseEmit }) ∧
  (∀ f, RendererMatchesDocument f → ∀ v : Byte,
    Shows (labelsOf f { plainRecord .functionSet v with width8 := v.getLsbD 4 })
      (if v.getLsbD 4 then "8-bit" else "4-bit"))

/-- Code 6; selected by a command write with value in [64, 128), which are the words matching 0x040
under mask 0x3C0; from every state it answers the state with its record in t_rec, every field it
does not use 0, phase WaitRiseEmit, and everything else unchanged. The address is value & 0x3F.
Formalises R140. -/
def Obligations.SetCGRAMAddressResult : Prop :=
  Category.setCGRAMAddress.code = 6 ∧
  (∀ cw : CW, decodeCW cw = .setCGRAMAddress (cwValue cw) ↔ cw &&& 0x3C0 = 0x040) ∧
  (∀ v : Byte, 64 ≤ v.toNat → v.toNat < 128 → decodeCW (packCW false false v) = .setCGRAMAddress v) ∧
  (∀ (v : Byte) (s : State), exec (.setCGRAMAddress v) s = .next
    { s with
      tRec := { cat := .setCGRAMAddress, value := v, addr := BitVec.ofNat 7 (v.toNat &&& 0x3F), inc := false, shift := false, width8 := false }
      phase := .waitRiseEmit })

/-- Code 7; selected by a command write with value in [128, 256), which are the words matching 0x080
under mask 0x380; from every state it answers the state with its record in t_rec, every field it
does not use 0, phase WaitRiseEmit, and everything else unchanged. The address is value & 0x7F.
Formalises R141. -/
def Obligations.SetDDRAMAddressResult : Prop :=
  Category.setDDRAMAddress.code = 7 ∧
  (∀ cw : CW, decodeCW cw = .setDDRAMAddress (cwValue cw) ↔ cw &&& 0x380 = 0x080) ∧
  (∀ v : Byte, 128 ≤ v.toNat → v.toNat < 256 → decodeCW (packCW false false v) = .setDDRAMAddress v) ∧
  (∀ (v : Byte) (s : State), exec (.setDDRAMAddress v) s = .next
    { s with
      tRec := { cat := .setDDRAMAddress, value := v, addr := BitVec.ofNat 7 (v.toNat &&& 0x7F), inc := false, shift := false, width8 := false }
      phase := .waitRiseEmit })

/-- Code 8; selected by rs = 0, rw = 1 and any value, which are the words matching 0x100 under mask
0x300; from every state it answers the state with its record in t_rec, every field it does not use
0, phase WaitRiseEmit, and everything else unchanged. The labels of a renderer that matches the
document do not depend on the value. Formalises R132. -/
def Obligations.ReadBusyFlagAndAddressCounterResult : Prop :=
  Category.readBusyFlagAndAddressCounter.code = 8 ∧
  (∀ cw : CW, decodeCW cw = .readBusyFlagAndAddressCounter (cwValue cw) ↔ cw &&& 0x300 = 0x100) ∧
  (∀ v : Byte, decodeCW (packCW false true v) = .readBusyFlagAndAddressCounter v) ∧
  (∀ (v : Byte) (s : State), exec (.readBusyFlagAndAddressCounter v) s = .next
    { s with
      tRec := { cat := .readBusyFlagAndAddressCounter, value := v, addr := 0, inc := false, shift := false, width8 := false }
      phase := .waitRiseEmit }) ∧
  (∀ f, RendererMatchesDocument f → ∀ v w : Byte,
    labelsOf f (plainRecord .readBusyFlagAndAddressCounter v) = labelsOf f (plainRecord .readBusyFlagAndAddressCounter w))

/-- Code 9; selected by rs = 1, rw = 1 and any value, which are the words matching 0x300 under mask
0x300; from every state it answers the state with its record in t_rec, every field it does not use
0, phase WaitRiseEmit, and everything else unchanged. The labels of a renderer that matches the
document do not depend on the value. Formalises R143. -/
def Obligations.MemoryReadResult : Prop :=
  Category.memoryRead.code = 9 ∧
  (∀ cw : CW, decodeCW cw = .memoryRead (cwValue cw) ↔ cw &&& 0x300 = 0x300) ∧
  (∀ v : Byte, decodeCW (packCW true true v) = .memoryRead v) ∧
  (∀ (v : Byte) (s : State), exec (.memoryRead v) s = .next
    { s with
      tRec := { cat := .memoryRead, value := v, addr := 0, inc := false, shift := false, width8 := false }
      phase := .waitRiseEmit }) ∧
  (∀ f, RendererMatchesDocument f → ∀ v w : Byte,
    labelsOf f (plainRecord .memoryRead v) = labelsOf f (plainRecord .memoryRead w))

/-- Code 10; selected by rs = 1, rw = 0 and any value, which are the words matching 0x200 under mask
0x300; from every state it answers the state with its record in t_rec, every field it does not use
0, phase WaitRiseEmit, and everything else unchanged. A renderer that matches the document shows the
byte in hexadecimal, and as an ASCII character where it is printable. That these stand in a label as
0x with two upper-case digits, and as the character in quotes for bytes 32 to 126, is the model's
reading (notes/assumptions/13.md). Derived from 43_command_classifier.md R144;
43_command_classifier.md R147. -/
def Obligations.MemoryWriteResult : Prop :=
  Category.memoryWrite.code = 10 ∧
  (∀ cw : CW, decodeCW cw = .memoryWrite (cwValue cw) ↔ cw &&& 0x300 = 0x200) ∧
  (∀ v : Byte, decodeCW (packCW true false v) = .memoryWrite v) ∧
  (∀ (v : Byte) (s : State), exec (.memoryWrite v) s = .next
    { s with
      tRec := { cat := .memoryWrite, value := v, addr := 0, inc := false, shift := false, width8 := false }
      phase := .waitRiseEmit }) ∧
  (∀ f, RendererMatchesDocument f → ∀ v : Byte,
    Shows (labelsOf f (plainRecord .memoryWrite v)) (hexText v) ∧
    (32 ≤ v.toNat → v.toNat < 127 → Shows (labelsOf f (plainRecord .memoryWrite v))
      (String.ofList ['\'', Char.ofNat v.toNat, '\''])))

/-- Code 11; the meaning leaves the record of category Warning carrying the raw value and writes no
mode; no classification word decodes to it; and no run after a reset, on any input stream, emits a
record of that category or shows its code on the port. Formalises R142. -/
def Obligations.WarningResult : Prop :=
  Category.warning.code = 11 ∧
  (∀ (v : Byte) (s : State), exec (.warning v) s = .next
    { s with
      tRec := { cat := .warning, value := v, addr := 0, inc := false, shift := false, width8 := false }
      phase := .waitRiseEmit }) ∧
  (∀ (cw : CW) (v : Byte), decodeCW cw ≠ .warning v) ∧
  ∀ (cfg4bit : Bool) (s t : State) (k : Nat), RunsTo k (applyReset cfg4bit s) t →
    (∀ a ∈ t.emitted, a.record.cat ≠ .warning) ∧ t.out.aCat ≠ 11

/-- For every value and control bits, from every state, exec of the decoded instruction answers the
state in which t_rec is classify's record, mode is classify's mode write where there is one, phase
is WaitRiseEmit, and all else is unchanged. Formalises R131, R133. -/
def Obligations.MeaningsImplementTheClassifier : Prop :=
  ∀ (v : Byte) (rs rw : Bool) (s : State),
    exec (decodeCW (packCW rs rw v)) s = .next
      { s with
        mode := (classify v rs rw).2.getD s.mode
        tRec := (classify v rs rw).1
        phase := .waitRiseEmit }

/-- Every instruction, from every state, answers a next state; it leaves pend, prev_clk, t_start, the
parameters, the output port and its latency, the emitted records, the index premise and the inputs
unchanged; and every instruction but FunctionSet leaves mode unchanged. Formalises R149. -/
def Obligations.EveryMeaningCompletesWithItsFrame : Prop :=
  ∀ (i : Instr) (s : State), ∃ t, exec i s = .next t ∧
    t.pend = s.pend ∧ t.prevClk = s.prevClk ∧ t.tStart = s.tStart ∧ t.params = s.params ∧
    t.out = s.out ∧ t.outPipe = s.outPipe ∧ t.emitted = s.emitted ∧ t.lastIdx = s.lastIdx ∧
    t.inputs = s.inputs ∧ t.phase = .waitRiseEmit ∧ t.tRec.value = i.value ∧
    ((∀ v, i ≠ .functionSet v) → t.mode = s.mode)

/-- In EightBit and WaitFall, with the clock high before, an admitted sample with the clock low: where
RS and RW are known, the step is exec of the instruction decoded from {rs, rw, sample_to_byte} at
the state with t_start the sample's index, followed by the clock, index and output updates; where RS
or RW is X, it is refused as CtrlIndeterminate. Formalises R101. -/
def Obligations.EightBitFallingEdgeRunsTheDecodedInstruction : Prop :=
  ∀ (s : State) (S : Sample) (rest : List BlockCycle),
    Offers s S false rest → s.mode = .eightBit → s.phase = .waitFall → s.prevClk = some true →
    (∀ rs rw, S.rs.level = some rs → S.rw.level = some rw →
      step s = thenNext
        (exec (decodeCW (packCW rs rw (sampleToByte S))) { s with inputs := rest, tStart := S.idx })
        (finishSample S.idx false none)) ∧
    (S.rs = .indet ∨ S.rw = .indet → step s = .refused .ctrlIndeterminate)

/-- In FourBitFirstNibble and WaitFall, with the clock high before, an admitted sample with the clock
low, whatever its RS, RW and D7..D4: t_start is its index, pend its bits 3..0, mode
FourBitSecondNibble, phase WaitRiseSilent, prev_clk Some(0); nothing is emitted and t_rec is
unchanged. Formalises R102. -/
def Obligations.FirstNibbleFallingEdge : Prop :=
  ∀ (s : State) (S : Sample) (rest : List BlockCycle),
    Offers s S false rest → s.mode = .fourBitFirstNibble → s.phase = .waitFall → s.prevClk = some true →
    step s = .next (outputCycle none
      { s with
        inputs := rest
        tStart := S.idx
        pend := (sampleToByte S).extractLsb' 0 4
        mode := .fourBitSecondNibble
        phase := .waitRiseSilent
        prevClk := some false
        lastIdx := some S.idx })

/-- In FourBitSecondNibble and WaitFall, with the clock high before, an admitted sample with the clock
low: where RS and RW are known, the step is exec of the instruction decoded from {rs, rw, b[7:4] +
pend} at the state with mode FourBitFirstNibble and t_start written only under P_START4 =
SecondNibble, followed by the clock, index and output updates; where RS or RW is X, it is refused as
CtrlIndeterminate. Formalises R103. -/
def Obligations.SecondNibbleFallingEdgeRunsTheDecodedInstruction : Prop :=
  ∀ (s : State) (S : Sample) (rest : List BlockCycle),
    Offers s S false rest → s.mode = .fourBitSecondNibble → s.phase = .waitFall →
    s.prevClk = some true →
    (∀ rs rw, S.rs.level = some rs → S.rw.level = some rw →
      step s = thenNext
        (exec (decodeCW (packCW rs rw
            (BitVec.ofNat 8 ((sampleToByte S).toNat / 16 + s.pend.toNat))))
          { s with
            inputs := rest
            mode := .fourBitFirstNibble
            tStart := if s.params.pStart4 = .secondNibble then S.idx else s.tStart })
        (finishSample S.idx false none)) ∧
    (S.rs = .indet ∨ S.rw = .indet → step s = .refused .ctrlIndeterminate)

/-- In Ignored and WaitFall, with the clock high before, an admitted sample with the clock low, whatever
its other lines: phase is WaitRiseSilent, and mode, t_start, pend and t_rec are unchanged.
Formalises R104. -/
def Obligations.IgnoredFallingEdge : Prop :=
  ∀ (s : State) (S : Sample) (rest : List BlockCycle),
    Offers s S false rest → s.mode = .ignored → s.phase = .waitFall → s.prevClk = some true →
    step s = .next (outputCycle none
      { s with
        inputs := rest
        phase := .waitRiseSilent
        prevClk := some false
        lastIdx := some S.idx })

/-- In WaitRiseSilent with the clock low before, an admitted sample with the clock high: phase is
WaitFall, nothing is emitted, and no other field but prev_clk changes. Formalises R109. -/
def Obligations.SilentRise : Prop :=
  ∀ (s : State) (S : Sample) (rest : List BlockCycle),
    Offers s S true rest → s.phase = .waitRiseSilent → s.prevClk = some false →
    step s = .next (outputCycle none
      { s with
        inputs := rest
        phase := .waitFall
        prevClk := some true
        lastIdx := some S.idx })

/-- In WaitRiseEmit with the clock low before, an admitted sample with index i and the clock high: one
annotation (t_start, i, t_rec) joins the emitted records and the output latency, phase is WaitFall,
and no other field but prev_clk changes. Formalises R110. -/
def Obligations.EmittingRise : Prop :=
  ∀ (s : State) (S : Sample) (rest : List BlockCycle),
    Offers s S true rest → s.phase = .waitRiseEmit → s.prevClk = some false →
    ∃ t, step s = .next t ∧
      t = outputCycle (some { startIdx := s.tStart, endIdx := S.idx, record := s.tRec })
        { s with
          inputs := rest
          phase := .waitFall
          prevClk := some true
          lastIdx := some S.idx } ∧
      t.emitted = s.emitted ++ [{ startIdx := s.tStart, endIdx := S.idx, record := s.tRec }]

/-- Where the phase is WaitFall and the sample is no falling edge, or the phase is a rising-edge wait
and the sample is no rising edge, an admitted sample, whatever its data, RS and RW, leaves mode,
pend, phase, t_start and t_rec unchanged and emits nothing; prev_clk takes its clock level.
Formalises R94. -/
def Obligations.UnconsumedSampleOnlyMovesTheClock : Prop :=
  ∀ (s : State) (S : Sample) (c : Bool) (rest : List BlockCycle),
    Offers s S c rest →
    (s.phase = .waitFall ∧ ¬(s.prevClk = some true ∧ c = false)) ∨
      (s.phase ≠ .waitFall ∧ ¬(s.prevClk = some false ∧ c = true)) →
    step s = .next (outputCycle none
      { s with
        inputs := rest
        prevClk := some c
        lastIdx := some S.idx })

/-- After a reset prev_clk is None, and the next admitted sample, whatever its clock level, only sets
prev_clk: no field else changes and nothing is emitted. Formalises R93. -/
def Obligations.FirstSampleAfterResetIsNoEdge : Prop :=
  ∀ (cfg4bit : Bool) (s : State) (S : Sample) (c : Bool) (rest : List BlockCycle),
    Offers (applyReset cfg4bit s) S c rest →
    (applyReset cfg4bit s).prevClk = none ∧
    step (applyReset cfg4bit s) = .next (outputCycle none
      { applyReset cfg4bit s with
        inputs := rest
        prevClk := some c
        lastIdx := some S.idx })

/-- A block cycle without reset and with s_valid = 0, whatever its other ports, leaves every field of
the block unchanged, prev_clk included, and emits no record; only the output side moves on by one
block cycle. Formalises R98. -/
def Obligations.CycleWithoutSampleIsNoStep : Prop :=
  ∀ (s : State) (c : BlockCycle) (rest : List BlockCycle),
    s.inputs = c :: rest → c.rst = false → c.sValid = false →
    ∃ t, step s = .next t ∧ t.mode = s.mode ∧ t.pend = s.pend ∧ t.phase = s.phase ∧
      t.prevClk = s.prevClk ∧ t.tStart = s.tStart ∧ t.tRec = s.tRec ∧ t.emitted = s.emitted ∧
      t.lastIdx = s.lastIdx ∧ t.params = s.params ∧ t.inputs = rest

/-- From every state, a cycle with rst asserted and any sample port: mode is FourBitFirstNibble if
cfg_4bit is 1 and EightBit if 0, phase WaitFall, prev_clk None, a_valid and every other output 0, no
record of the new run emitted, and the index-order premise restarts. pend, t_start and t_rec, which
the rule leaves unspecified, are not spoken of. Formalises R181. -/
def Obligations.ResetCycleSetsTheStartState : Prop :=
  ∀ (s : State) (c : BlockCycle) (rest : List BlockCycle), s.inputs = c :: rest → c.rst = true →
    ∃ t, step s = .next t ∧
      t.mode = (if c.cfg4bit then .fourBitFirstNibble else .eightBit) ∧ t.phase = .waitFall ∧
      t.prevClk = none ∧
      t.out = { aValid := false, aStart := 0, aEnd := 0, aCat := 0, aValue := 0, aAddr := 0,
                aInc := false, aShift := false, aWidth8 := false } ∧
      t.emitted = [] ∧ t.lastIdx = none ∧ t.params = s.params ∧ t.inputs = rest

/-- State.reset, and the state after a reset of any state with either bus width, meet the state
invariant, the output-order invariant and the classified-output invariant. State.reset's cfg_4bit =
0, W_IDX and OUT_LAT are the model's choice (notes/assumptions/2.md and 3.md). Derived from
10_state.md R35; 10_state.md R37; 70_reset_and_hazards.md R181. -/
def Obligations.ResetMeetsTheInvariants : Prop :=
  (Inv State.reset ∧ OutputOrdered State.reset ∧ OutputsClassified State.reset) ∧
  ∀ (cfg4bit : Bool) (s : State), Inv (applyReset cfg4bit s) ∧ OutputOrdered (applyReset cfg4bit s) ∧
    OutputsClassified (applyReset cfg4bit s)

/-- From every state that meets the invariant (mode not Ignored; outside WaitFall the clock was low; in
FourBitSecondNibble the phase is WaitRiseSilent or WaitFall; a record waiting for its rise is one
the classifier gives and started no later than the last admitted sample; prev_clk and the index
premise agree; the output latency is OUT_LAT long), every step that answers a next state answers one
that meets it. Derived from 10_state.md R37. -/
def Obligations.EveryStepKeepsTheInvariant : Prop :=
  ∀ s t : State, Inv s → step s = .next t → Inv t

/-- From every state that meets the state invariant and the output-order invariant, every step that
answers a next state answers one that meets the output-order invariant. Derived from 20_memory.md
R50. -/
def Obligations.EveryStepKeepsTheOutputOrder : Prop :=
  ∀ s t : State, Inv s → OutputOrdered s → step s = .next t → OutputOrdered t

/-- After a reset of any state, on any input stream and after any number of steps: every emitted record
has a_start < a_end, and of any two emitted records the earlier ends before the later starts, so
a_start and a_end both increase strictly. Formalises R50. -/
def Obligations.EveryRunEmitsInStrictOrder : Prop :=
  ∀ (cfg4bit : Bool) (s t : State) (k : Nat), RunsTo k (applyReset cfg4bit s) t →
    (∀ a ∈ t.emitted, a.startIdx < a.endIdx) ∧
    t.emitted.Pairwise (fun a b =>
      a.endIdx < b.startIdx ∧ a.startIdx < b.startIdx ∧ a.endIdx < b.endIdx)

/-- From every state in a 4-bit mode, over any number of steps with no reset among them: the mode stays
a 4-bit mode, and every record completed on the way (every emitted record beyond the one that was
already waiting, and the one waiting at the end unless it is that one) carries a value of at most 30
and is no FunctionSet, SetCGRAMAddress or SetDDRAMAddress. Formalises R114. -/
def Obligations.FourBitModeEndsOnlyByReset : Prop :=
  ∀ (s t : State) (k : Nat), s.mode.isFourBit = true → NoResetIn k s → RunsTo k s t →
    t.mode.isFourBit = true ∧
    (∀ a ∈ t.emitted, a ∈ s.emitted ∨ (s.phase = .waitRiseEmit ∧ a.record = s.tRec) ∨
      a.record.value.toNat ≤ 30 ∧ a.record.cat ≠ .functionSet ∧ a.record.cat ≠ .setCGRAMAddress ∧
        a.record.cat ≠ .setDDRAMAddress) ∧
    (t.tRec = s.tRec ∨ t.tRec.value.toNat ≤ 30 ∧ t.tRec.cat ≠ .functionSet ∧
      t.tRec.cat ≠ .setCGRAMAddress ∧ t.tRec.cat ≠ .setDDRAMAddress)

/-- Two states that agree except on pend outside FourBitSecondNibble, on t_start outside
FourBitSecondNibble and WaitRiseEmit, and on t_rec outside WaitRiseEmit, give agreeing answers after
any number of steps: the same refusal or fault, or next states that agree again, with the same
emitted records and output port. Derived from 42_transaction_state_machine.md R113; 10_state.md R35. -/
def Obligations.UnreadFieldsAreNeverObserved : Prop :=
  ∀ (k : Nat) (s t : State), AgreeWhereRead s t →
    ResultsAgree (runSteps k s) (runSteps k t)

/-- Two states with the same parameters and the same inputs are reset with the same cfg_4bit, and
pend, t_start and t_rec are then given any values at all: whenever one runs k steps, so does the
other, with the same emitted records, output port, mode and phase. That the port, too, is the same
in the OUT_LAT cycles after the reset rests on the model's reading that a reset empties the output
latency (notes/assumptions/9.md). Derived from 70_reset_and_hazards.md R184;
42_transaction_state_machine.md R113. -/
def Obligations.RunsAfterResetAreIdentical : Prop :=
  ∀ (cfg4bit : Bool) (s t : State) (p q : Nibble) (m n : Nat) (r r' : Record) (k : Nat) (u : State),
    s.params = t.params → s.inputs = t.inputs →
    RunsTo k { applyReset cfg4bit s with pend := p, tStart := m, tRec := r } u →
    ∃ w, RunsTo k { applyReset cfg4bit t with pend := q, tStart := n, tRec := r' } w ∧
      w.emitted = u.emitted ∧ w.out = u.out ∧ w.mode = u.mode ∧ w.phase = u.phase

/-- From every state, if a stream runs out, then so does the stream without its cycles that offer no
sample and without its samples at the clock level before them (the first sample after a reset is
kept), and it ends with the same emitted records, mode, pend, phase and prev_clk. Derived from
41_edge_detector.md R96; 41_edge_detector.md R97; 41_edge_detector.md R98. -/
def Obligations.TransitionOnlyStreamGivesTheSameRecords : Prop :=
  ∀ s t : State, RunsOut s t →
    ∃ u, RunsOut { s with inputs := transitionsOnly s.prevClk s.inputs } u ∧
      u.emitted = t.emitted ∧ u.mode = t.mode ∧ u.pend = t.pend ∧ u.phase = t.phase ∧
      u.prevClk = t.prevClk

/-- From every state whose output latency is OUT_LAT long: if a step without reset adds the record e (or
none) to the emitted records, then after OUT_LAT further block cycles without reset the port shows
exactly e with a_valid = 1 (or, for none, every output 0). Derived from 70_reset_and_hazards.md
R192; 10_state.md R33; 10_state.md R34. -/
def Obligations.RecordReachesThePortAfterOutLat : Prop :=
  ∀ (s t u : State) (e : Option Annotation), s.outPipe.length = s.params.outLat →
    NoResetIn 1 s → step s = .next t → t.emitted = s.emitted ++ e.toList →
    NoResetIn s.params.outLat t → RunsTo s.params.outLat t u → u.out = drivePort e

/-- In every state that meets the invariant, a falling edge finds the phase WaitFall and its step leaves
a rising-edge wait, and the step of a rising edge leaves WaitFall. Derived from 41_edge_detector.md
R95. -/
def Obligations.EdgesAlternateAndNoneIsSkipped : Prop :=
  ∀ (s t : State) (S : Sample) (c : Bool) (rest : List BlockCycle),
    Inv s → Offers s S c rest → step s = .next t →
    (s.prevClk = some true → c = false → s.phase = .waitFall ∧ t.phase ≠ .waitFall) ∧
    (s.prevClk = some false → c = true → t.phase = .waitFall)

/-- From every state, a cycle without reset that offers a sample whose CLK is X is refused as
ClockIndeterminate. That it is so named even where the index is out of order as well is the model's
choice (notes/assumptions/8.md). Derived from 60_exceptions.md R164. -/
def Obligations.IndeterminateClockIsRefused : Prop :=
  ∀ (s : State) (c : BlockCycle) (rest : List BlockCycle),
    s.inputs = c :: rest → c.rst = false → c.sValid = true → (portSample c).clk = .indet →
    step s = .refused .clockIndeterminate

/-- From every state, a cycle without reset that offers a sample with a known clock whose index is not
strictly above the last admitted one, or does not fit in W_IDX bits, is refused as IndexOrder. (That
the clock's refusal is named first is the model's choice, notes/assumptions/8.md.) Formalises R166. -/
def Obligations.IndexOutOfOrderIsRefused : Prop :=
  ∀ (s : State) (c : BlockCycle) (rest : List BlockCycle),
    s.inputs = c :: rest → c.rst = false → c.sValid = true → (portSample c).clk ≠ .indet →
    (∃ n, s.lastIdx = some n ∧ c.sIdx ≤ n) ∨ 2 ^ s.params.wIdx ≤ c.sIdx →
    step s = .refused .indexOrder

/-- An admitted completion sample whose RS or RW is X is refused as CtrlIndeterminate; and for a sample
that is no completion sample, any other RS and RW give the very same answer. Formalises R165. -/
def Obligations.ControlLinesAreReadAtCompletionOnly : Prop :=
  (∀ (s : State) (S : Sample) (c : Bool) (rest : List BlockCycle),
    Offers s S c rest → IsCompletion s S → S.rs = .indet ∨ S.rw = .indet →
    step s = .refused .ctrlIndeterminate) ∧
  ∀ (s : State) (S : Sample) (x y : LineState), ¬IsCompletion s S →
    sampleStep { S with rs := x, rw := y } s = sampleStep S s

/-- For every state with a next block cycle: the step answers a next state if and only if the cycle
resets, offers no sample, or offers one with a known clock, an index above the last admitted one
that fits W_IDX, and, if it is a completion sample, known RS and RW. It never faults. Derived from
60_exceptions.md R160; 60_exceptions.md R163 to R166; 70_reset_and_hazards.md R193. -/
def Obligations.StepAnswersNextExactlyOnLegalCycles : Prop :=
  ∀ (s : State) (c : BlockCycle) (rest : List BlockCycle), s.inputs = c :: rest →
    ((∃ t, step s = .next t) ↔
      c.rst = true ∨ c.sValid = false ∨
      ((portSample c).clk ≠ .indet ∧ (∀ n, s.lastIdx = some n → n < c.sIdx) ∧
        c.sIdx < 2 ^ s.params.wIdx ∧
        (IsCompletion s (portSample c) → (portSample c).rs ≠ .indet ∧ (portSample c).rw ≠ .indet))) ∧
    ∀ e, step s ≠ .fault e

/-- From every state, a stream runs to its end in a next state if and only if every offered sample
has a known clock and an index above the last admitted one that fits W_IDX, and every completion
sample has known RS and RW; RS and RW of all other samples, data lines, resets and gaps are free.
Which samples are completion samples is followed along the stream through mode, phase and prev_clk.
Derived from 70_reset_and_hazards.md R193; 60_exceptions.md R160; 60_exceptions.md R164 to R166;
42_transaction_state_machine.md R114. -/
def Obligations.LegalStreamsRunToTheirEnd : Prop :=
  ∀ s : State, (∃ t, RunsOut s t ∧ t.inputs = []) ↔ SourceMeetsDuty s.params.wIdx s.followed s.inputs

/-- A cycle without reset gives the same answer whatever cfg_4bit is; and a step without reset out of a
mode other than Ignored that changes the bus width has just completed a FunctionSet. Formalises
R183. -/
def Obligations.BusWidthChangesOnlyByResetAndFunctionSet : Prop :=
  (∀ (s : State) (c : BlockCycle) (rest : List BlockCycle) (b : Bool), c.rst = false →
    step { s with inputs := { c with cfg4bit := b } :: rest } = step { s with inputs := c :: rest }) ∧
  ∀ s t : State, NoResetIn 1 s → step s = .next t → s.mode ≠ .ignored →
    t.mode.isFourBit ≠ s.mode.isFourBit → t.phase = .waitRiseEmit ∧ t.tRec.cat = .functionSet

/-- For every value and control bits, the record the completion leaves, as the port drives it, carries
the value, an address only for the two address categories, a direction only for EntryModeSet, a
width only for FunctionSet, and shift never; and after every step, where a_valid is 0 every other
output is 0. Formalises R34. -/
def Obligations.UnusedOutputFieldsAreZero : Prop :=
  (∀ (v : Byte) (rs rw : Bool) (s t : State) (i j : Nat),
    exec (decodeCW (packCW rs rw v)) s = .next t →
    let p := drivePort (some { startIdx := i, endIdx := j, record := t.tRec })
    p.aValue = v ∧ p.aCat = t.tRec.cat.code ∧
    (t.tRec.cat ≠ .setCGRAMAddress → t.tRec.cat ≠ .setDDRAMAddress → p.aAddr = 0) ∧
    (t.tRec.cat ≠ .entryModeSet → p.aInc = false) ∧ p.aShift = false ∧
    (t.tRec.cat ≠ .functionSet → p.aWidth8 = false)) ∧
  ∀ s t : State, step s = .next t → t.out.aValid = false →
    t.out = { aValid := false, aStart := 0, aEnd := 0, aCat := 0, aValue := 0, aAddr := 0,
              aInc := false, aShift := false, aWidth8 := false }

/-- From every state in which the emitted records, those on the way to the port, the one waiting for its
rise and the one on the port are the classifier's, every step answers a next state with the same
property; and a record the classifier gives has a category code of at most 10, so codes 11 to 15
never leave the block. Derived from 30_encoding.md R70; 43_command_classifier.md R148;
43_command_classifier.md R145. -/
def Obligations.EveryStepKeepsOutputsClassified : Prop :=
  (∀ s t : State, OutputsClassified s → step s = .next t → OutputsClassified t) ∧
  ∀ r : Record, Classified r → r.cat.code.toNat ≤ 10

/-- No run after a reset reaches Ignored; and from a state in Ignored with no record waiting to be
emitted, over any number of steps without reset, the mode stays Ignored and nothing is ever emitted.
Formalises R115. -/
def Obligations.IgnoredIsUnreachableAndAbsorbs : Prop :=
  (∀ (cfg4bit : Bool) (s t : State) (k : Nat), RunsTo k (applyReset cfg4bit s) t → t.mode ≠ .ignored) ∧
  ∀ (s t : State) (k : Nat), s.mode = .ignored → s.phase ≠ .waitRiseEmit → NoResetIn k s →
    RunsTo k s t → t.mode = .ignored ∧ t.emitted = s.emitted

/-- From every state with a record waiting for its rise, over any number of steps without reset:
either the record and its start are still waiting unchanged and nothing has been emitted, or the
emitted records are those before, then this record with its own start and the index i of one
admitted sample, then later ones; and where the state meets the invariant, the record starts before
i and every later record starts after i, so that none is this transaction again. That the sample
which ends the wait is the rising edge is EmittingRise's to say, not this statement's. Derived from
42_transaction_state_machine.md R111; 70_reset_and_hazards.md R189; 20_memory.md R48; 20_memory.md
R50. -/
def Obligations.WaitingTransactionIsEmittedExactlyOnce : Prop :=
  ∀ (s t : State) (k : Nat), s.phase = .waitRiseEmit → NoResetIn k s → RunsTo k s t →
    (t.phase = .waitRiseEmit ∧ t.tRec = s.tRec ∧ t.tStart = s.tStart ∧ t.emitted = s.emitted) ∨
    ∃ (i : Nat) (later : List Annotation),
      (∃ c ∈ s.inputs.take k, c.sValid = true ∧ c.sIdx = i) ∧
      t.emitted = s.emitted ++ { startIdx := s.tStart, endIdx := i, record := s.tRec } :: later ∧
      (Inv s → s.tStart < i ∧ ∀ a ∈ later, i < a.startIdx)

/-- From every state, the stream '.cfg 8bit, idle, cyc rs rw v' runs out and emits exactly the record
that the classifier gives for v, rs and rw over [1,2], and leaves the mode FunctionSet writes, else
EightBit. Derived from 42_transaction_state_machine.md R101; 42_transaction_state_machine.md R110;
95_test_vectors.md sections 1.2 and 1.3. -/
def Obligations.EightBitStreamEmitsItsClassification : Prop :=
  ∀ (s : State) (rs rw : Bool) (v : Byte), 2 < 2 ^ s.params.wIdx →
    ∃ t, RunsOut (s.withStream ([.cfg false] ++ idle ++ cyc (bitLine rs) (bitLine rw) (.ofByte v))) t ∧
      t.emitted = [{ startIdx := 1, endIdx := 2, record := (classify v rs rw).1 }] ∧
      t.mode = (classify v rs rw).2.getD .eightBit ∧ t.phase = .waitFall

/-- From every state, the stream '.cfg 4bit, idle, raw4 rs rw a b' runs out and emits exactly the record
that the classifier gives for (b >> 4) + (a & 0xF), rs and rw, ending at 4 and starting at 1, or at
3 under P_START4 = SecondNibble, and leaves FourBitFirstNibble. Derived from
42_transaction_state_machine.md R102; 42_transaction_state_machine.md R103;
42_transaction_state_machine.md R105; 42_transaction_state_machine.md R107; 95_test_vectors.md
section 1.4. -/
def Obligations.FourBitStreamEmitsTheNibbleSum : Prop :=
  ∀ (s : State) (rs rw : Bool) (a b : Byte), 4 < 2 ^ s.params.wIdx →
    ∃ t, RunsOut (s.withStream ([.cfg true] ++ idle ++ raw4 (bitLine rs) (bitLine rw) a b)) t ∧
      t.emitted =
        [{ startIdx := if s.params.pStart4 = .firstNibble then 1 else 3
           endIdx := 4
           record := (classify (BitVec.ofNat 8 (b.toNat / 16 + a.toNat % 16)) rs rw).1 }] ∧
      t.mode = .fourBitFirstNibble ∧ t.phase = .waitFall

/-- From every state, with any of the 1024 classification words placed by withFetchWord, the step is
exec of the decoded instruction at the placed state without its first cycle, with t_start 0,
followed by the clock, index and output updates; and it answers a next state. withFetchWord is the
model's own (notes/assumptions/12.md). Derived from 30_encoding.md R62;
42_transaction_state_machine.md R101. -/
def Obligations.FetchedWordIsRun : Prop :=
  ∀ (s : State) (nbits : Nat) (cw : CW),
    step (s.withFetchWord nbits cw.toNat) =
      thenNext (exec (decodeCW cw)
          { s with
            mode := .eightBit
            phase := .waitFall
            prevClk := some true
            lastIdx := none
            tStart := 0 })
        (finishSample 0 false none) ∧
    ∃ t, step (s.withFetchWord nbits cw.toNat) = .next t

/-- The step faults if and only if no block cycle is left, and then with endOfStream. The spec says the
run ends there and not what the hardware does; the fault is the model's choice
(notes/assumptions/5.md). Derived from 70_reset_and_hazards.md R194; 60_exceptions.md R176. -/
def Obligations.RunEndsWithItsStream : Prop :=
  ∀ (s : State) (e : Fault), step s = .fault e ↔ s.inputs = [] ∧ e = .endOfStream

/-- mode: EightBit 00, FourBitFirstNibble 01, FourBitSecondNibble 10, Ignored 11; phase: WaitFall 00,
WaitRiseSilent 01, WaitRiseEmit 10; categories in the order of R67 are 0 to 11. Derived from
10_state.md R21; 10_state.md R23; 30_encoding.md R67. -/
def Obligations.StateAndCategoryCodes : Prop :=
  [Mode.eightBit, .fourBitFirstNibble, .fourBitSecondNibble, .ignored].map Mode.code =
    [0b00, 0b01, 0b10, 0b11] ∧
  [Phase.waitFall, .waitRiseSilent, .waitRiseEmit].map Phase.code = [0b00, 0b01, 0b10] ∧
  [Category.clearDisplay, .returnHome, .entryModeSet, .displayControl, .displayShift, .functionSet,
    .setCGRAMAddress, .setDDRAMAddress, .readBusyFlagAndAddressCounter, .memoryRead, .memoryWrite,
    .warning].map Category.code = [0, 1, 2, 3, 4, 5, 6, 7, 8, 9, 10, 11]
end

