-- ==== Sys2Proof/Laws/Exec.lean ====
section
/-! SUPPORT. What every meaning does, said once: `exec` completes, with one record and one mode write per
instruction, and touches nothing else. -/

namespace Sys2Proof.Machine

/-- The record an instruction leaves. -/
def recordOf : Instr → Record
  | .clearDisplay v => plainRecord .clearDisplay v
  | .returnHome v => plainRecord .returnHome v
  | .entryModeSet v => { plainRecord .entryModeSet v with inc := entryDirection v }
  | .displayControl v => plainRecord .displayControl v
  | .displayShift v => plainRecord .displayShift v
  | .functionSet v => { plainRecord .functionSet v with width8 := functionWidth8 v }
  | .setCGRAMAddress v => { plainRecord .setCGRAMAddress v with addr := cgramAddress v }
  | .setDDRAMAddress v => { plainRecord .setDDRAMAddress v with addr := ddramAddress v }
  | .readBusyFlagAndAddressCounter v => plainRecord .readBusyFlagAndAddressCounter v
  | .memoryWrite v => plainRecord .memoryWrite v
  | .memoryRead v => plainRecord .memoryRead v
  | .warning v => plainRecord .warning v

/-- The mode an instruction leaves, from the mode before. -/
def modeAfter : Instr → Mode → Mode
  | .functionSet v, _ => functionMode v
  | .clearDisplay _, m => m
  | .returnHome _, m => m
  | .entryModeSet _, m => m
  | .displayControl _, m => m
  | .displayShift _, m => m
  | .setCGRAMAddress _, m => m
  | .setDDRAMAddress _, m => m
  | .readBusyFlagAndAddressCounter _, m => m
  | .memoryWrite _, m => m
  | .memoryRead _, m => m
  | .warning _, m => m

/-- The state after an instruction's completion. -/
def completed (i : Instr) (s : State) : State :=
  { s with mode := modeAfter i s.mode, tRec := recordOf i, phase := .waitRiseEmit }

/-- Every meaning answers the next state `completed`. -/
theorem exec_eq_completed (i : Instr) (s : State) : exec i s = .next (completed i s) := by
  cases i <;> rfl

section Completed
variable (i : Instr) (s : State)
@[simp] theorem completed_params : (completed i s).params = s.params := rfl
@[simp] theorem completed_mode : (completed i s).mode = modeAfter i s.mode := rfl
@[simp] theorem completed_pend : (completed i s).pend = s.pend := rfl
@[simp] theorem completed_phase : (completed i s).phase = .waitRiseEmit := rfl
@[simp] theorem completed_prevClk : (completed i s).prevClk = s.prevClk := rfl
@[simp] theorem completed_tStart : (completed i s).tStart = s.tStart := rfl
@[simp] theorem completed_tRec : (completed i s).tRec = recordOf i := rfl
@[simp] theorem completed_out : (completed i s).out = s.out := rfl
@[simp] theorem completed_outPipe : (completed i s).outPipe = s.outPipe := rfl
@[simp] theorem completed_emitted : (completed i s).emitted = s.emitted := rfl
@[simp] theorem completed_lastIdx : (completed i s).lastIdx = s.lastIdx := rfl
@[simp] theorem completed_inputs : (completed i s).inputs = s.inputs := rfl
end Completed

/-- The completion of a sample, by what its control lines are. -/
theorem completeSample_known {S : Sample} {rs rw : Bool} (v : Byte) (s : State)
    (hrs : S.rs.level = some rs) (hrw : S.rw.level = some rw) :
    completeSample S v s = .next (completed (decodeCW (packCW rs rw v)) s) := by
  simp [completeSample, hrs, hrw, exec_eq_completed]

/-- The completion of a sample answers a next state only where both control lines are known. -/
theorem completeSample_next {S : Sample} {v : Byte} {s t : State}
    (h : completeSample S v s = .next t) :
    ∃ rs rw, S.rs.level = some rs ∧ S.rw.level = some rw ∧
      t = completed (decodeCW (packCW rs rw v)) s := by
  unfold completeSample at h
  split at h
  · rename_i rs rw hrs hrw
    rw [exec_eq_completed] at h
    exact ⟨rs, rw, hrs, hrw, by injection h with h; exact h.symm⟩
  · cases h

end Sys2Proof.Machine
end

