-- ==== Sys2Proof/Laws/State.lean ====
section
/-! SUPPORT. The fields of a state after each shared update, all by `rfl`, so that no proof unfolds a
record update. -/

namespace Sys2Proof.Machine

section OutputCycle
variable (e : Option Annotation) (s : State)
@[simp] theorem outputCycle_params : (outputCycle e s).params = s.params := rfl
@[simp] theorem outputCycle_mode : (outputCycle e s).mode = s.mode := rfl
@[simp] theorem outputCycle_pend : (outputCycle e s).pend = s.pend := rfl
@[simp] theorem outputCycle_phase : (outputCycle e s).phase = s.phase := rfl
@[simp] theorem outputCycle_prevClk : (outputCycle e s).prevClk = s.prevClk := rfl
@[simp] theorem outputCycle_tStart : (outputCycle e s).tStart = s.tStart := rfl
@[simp] theorem outputCycle_tRec : (outputCycle e s).tRec = s.tRec := rfl
@[simp] theorem outputCycle_lastIdx : (outputCycle e s).lastIdx = s.lastIdx := rfl
@[simp] theorem outputCycle_inputs : (outputCycle e s).inputs = s.inputs := rfl
@[simp] theorem outputCycle_emitted : (outputCycle e s).emitted = s.emitted ++ e.toList := rfl
@[simp] theorem outputCycle_out :
    (outputCycle e s).out = drivePort ((s.outPipe ++ [e]).headD none) := rfl
@[simp] theorem outputCycle_outPipe : (outputCycle e s).outPipe = (s.outPipe ++ [e]).tail := rfl
end OutputCycle

section FinishSample
variable (idx : Nat) (c : Bool) (e : Option Annotation) (s : State)
@[simp] theorem finishSample_params : (finishSample idx c e s).params = s.params := rfl
@[simp] theorem finishSample_mode : (finishSample idx c e s).mode = s.mode := rfl
@[simp] theorem finishSample_pend : (finishSample idx c e s).pend = s.pend := rfl
@[simp] theorem finishSample_phase : (finishSample idx c e s).phase = s.phase := rfl
@[simp] theorem finishSample_prevClk : (finishSample idx c e s).prevClk = some c := rfl
@[simp] theorem finishSample_tStart : (finishSample idx c e s).tStart = s.tStart := rfl
@[simp] theorem finishSample_tRec : (finishSample idx c e s).tRec = s.tRec := rfl
@[simp] theorem finishSample_lastIdx : (finishSample idx c e s).lastIdx = some idx := rfl
@[simp] theorem finishSample_inputs : (finishSample idx c e s).inputs = s.inputs := rfl
@[simp] theorem finishSample_emitted :
    (finishSample idx c e s).emitted = s.emitted ++ e.toList := rfl
@[simp] theorem finishSample_out :
    (finishSample idx c e s).out = drivePort ((s.outPipe ++ [e]).headD none) := rfl
@[simp] theorem finishSample_outPipe :
    (finishSample idx c e s).outPipe = (s.outPipe ++ [e]).tail := rfl
end FinishSample

section ApplyReset
variable (f : Bool) (s : State)
@[simp] theorem applyReset_params : (applyReset f s).params = s.params := rfl
@[simp] theorem applyReset_mode : (applyReset f s).mode = configuredMode f := rfl
@[simp] theorem applyReset_phase : (applyReset f s).phase = .waitFall := rfl
@[simp] theorem applyReset_prevClk : (applyReset f s).prevClk = none := rfl
@[simp] theorem applyReset_out : (applyReset f s).out = AnnPort.idle := rfl
@[simp] theorem applyReset_outPipe :
    (applyReset f s).outPipe = List.replicate s.params.outLat none := rfl
@[simp] theorem applyReset_emitted : (applyReset f s).emitted = [] := rfl
@[simp] theorem applyReset_lastIdx : (applyReset f s).lastIdx = none := rfl
@[simp] theorem applyReset_inputs : (applyReset f s).inputs = s.inputs := rfl
end ApplyReset

section EdgeActions
variable (S : Sample) (s : State)
@[simp] theorem firstNibbleAction_params : (firstNibbleAction S s).params = s.params := rfl
@[simp] theorem firstNibbleAction_mode : (firstNibbleAction S s).mode = .fourBitSecondNibble := rfl
@[simp] theorem firstNibbleAction_pend :
    (firstNibbleAction S s).pend = lowNibble (sampleToByte S) := rfl
@[simp] theorem firstNibbleAction_phase : (firstNibbleAction S s).phase = .waitRiseSilent := rfl
@[simp] theorem firstNibbleAction_prevClk : (firstNibbleAction S s).prevClk = s.prevClk := rfl
@[simp] theorem firstNibbleAction_tStart : (firstNibbleAction S s).tStart = S.idx := rfl
@[simp] theorem firstNibbleAction_tRec : (firstNibbleAction S s).tRec = s.tRec := rfl
@[simp] theorem firstNibbleAction_out : (firstNibbleAction S s).out = s.out := rfl
@[simp] theorem firstNibbleAction_outPipe : (firstNibbleAction S s).outPipe = s.outPipe := rfl
@[simp] theorem firstNibbleAction_emitted : (firstNibbleAction S s).emitted = s.emitted := rfl
@[simp] theorem firstNibbleAction_lastIdx : (firstNibbleAction S s).lastIdx = s.lastIdx := rfl
@[simp] theorem firstNibbleAction_inputs : (firstNibbleAction S s).inputs = s.inputs := rfl
@[simp] theorem ignoredAction_params : (ignoredAction s).params = s.params := rfl
@[simp] theorem ignoredAction_mode : (ignoredAction s).mode = s.mode := rfl
@[simp] theorem ignoredAction_pend : (ignoredAction s).pend = s.pend := rfl
@[simp] theorem ignoredAction_phase : (ignoredAction s).phase = .waitRiseSilent := rfl
@[simp] theorem ignoredAction_prevClk : (ignoredAction s).prevClk = s.prevClk := rfl
@[simp] theorem ignoredAction_tStart : (ignoredAction s).tStart = s.tStart := rfl
@[simp] theorem ignoredAction_tRec : (ignoredAction s).tRec = s.tRec := rfl
@[simp] theorem ignoredAction_out : (ignoredAction s).out = s.out := rfl
@[simp] theorem ignoredAction_outPipe : (ignoredAction s).outPipe = s.outPipe := rfl
@[simp] theorem ignoredAction_emitted : (ignoredAction s).emitted = s.emitted := rfl
@[simp] theorem ignoredAction_lastIdx : (ignoredAction s).lastIdx = s.lastIdx := rfl
@[simp] theorem ignoredAction_inputs : (ignoredAction s).inputs = s.inputs := rfl
@[simp] theorem eightBitStart_params : (eightBitStart S s).params = s.params := rfl
@[simp] theorem eightBitStart_mode : (eightBitStart S s).mode = s.mode := rfl
@[simp] theorem eightBitStart_pend : (eightBitStart S s).pend = s.pend := rfl
@[simp] theorem eightBitStart_phase : (eightBitStart S s).phase = s.phase := rfl
@[simp] theorem eightBitStart_prevClk : (eightBitStart S s).prevClk = s.prevClk := rfl
@[simp] theorem eightBitStart_tStart : (eightBitStart S s).tStart = S.idx := rfl
@[simp] theorem eightBitStart_tRec : (eightBitStart S s).tRec = s.tRec := rfl
@[simp] theorem eightBitStart_out : (eightBitStart S s).out = s.out := rfl
@[simp] theorem eightBitStart_outPipe : (eightBitStart S s).outPipe = s.outPipe := rfl
@[simp] theorem eightBitStart_emitted : (eightBitStart S s).emitted = s.emitted := rfl
@[simp] theorem eightBitStart_lastIdx : (eightBitStart S s).lastIdx = s.lastIdx := rfl
@[simp] theorem eightBitStart_inputs : (eightBitStart S s).inputs = s.inputs := rfl
@[simp] theorem secondNibbleStart_params : (secondNibbleStart S s).params = s.params := rfl
@[simp] theorem secondNibbleStart_mode : (secondNibbleStart S s).mode = .fourBitFirstNibble := rfl
@[simp] theorem secondNibbleStart_pend : (secondNibbleStart S s).pend = s.pend := rfl
@[simp] theorem secondNibbleStart_phase : (secondNibbleStart S s).phase = s.phase := rfl
@[simp] theorem secondNibbleStart_prevClk : (secondNibbleStart S s).prevClk = s.prevClk := rfl
@[simp] theorem secondNibbleStart_tRec : (secondNibbleStart S s).tRec = s.tRec := rfl
@[simp] theorem secondNibbleStart_out : (secondNibbleStart S s).out = s.out := rfl
@[simp] theorem secondNibbleStart_outPipe : (secondNibbleStart S s).outPipe = s.outPipe := rfl
@[simp] theorem secondNibbleStart_emitted : (secondNibbleStart S s).emitted = s.emitted := rfl
@[simp] theorem secondNibbleStart_lastIdx : (secondNibbleStart S s).lastIdx = s.lastIdx := rfl
@[simp] theorem secondNibbleStart_inputs : (secondNibbleStart S s).inputs = s.inputs := rfl
@[simp] theorem resumeWaitFall_params : (resumeWaitFall s).params = s.params := rfl
@[simp] theorem resumeWaitFall_mode : (resumeWaitFall s).mode = s.mode := rfl
@[simp] theorem resumeWaitFall_pend : (resumeWaitFall s).pend = s.pend := rfl
@[simp] theorem resumeWaitFall_phase : (resumeWaitFall s).phase = .waitFall := rfl
@[simp] theorem resumeWaitFall_prevClk : (resumeWaitFall s).prevClk = s.prevClk := rfl
@[simp] theorem resumeWaitFall_tStart : (resumeWaitFall s).tStart = s.tStart := rfl
@[simp] theorem resumeWaitFall_tRec : (resumeWaitFall s).tRec = s.tRec := rfl
@[simp] theorem resumeWaitFall_out : (resumeWaitFall s).out = s.out := rfl
@[simp] theorem resumeWaitFall_outPipe : (resumeWaitFall s).outPipe = s.outPipe := rfl
@[simp] theorem resumeWaitFall_emitted : (resumeWaitFall s).emitted = s.emitted := rfl
@[simp] theorem resumeWaitFall_lastIdx : (resumeWaitFall s).lastIdx = s.lastIdx := rfl
@[simp] theorem resumeWaitFall_inputs : (resumeWaitFall s).inputs = s.inputs := rfl
/-- The start stamp a second nibble leaves, by `P_START4` (R107). -/
theorem secondNibbleStart_tStart :
    (secondNibbleStart S s).tStart = if s.params.pStart4 = .secondNibble then S.idx else s.tStart := by
  cases h : s.params.pStart4 <;> simp [secondNibbleStart, h]
end EdgeActions

/-- `State.reset` is the reset of R181 with `cfg_4bit = 0`, applied to itself. -/
theorem applyReset_reset : applyReset false State.reset = State.reset := rfl

end Sys2Proof.Machine
end

