-- ==== Sys2Proof/Laws/Cycle.lean ====
section
/-! SUPPORT. What a sample, a block cycle and a step can do, said once: if the answer is a next state, one
of the listed cases holds. Proofs about the machine cite these and do not unfold the step. -/

namespace Sys2Proof.Machine

theorem thenNext_next {r : Result} {f : State → State} {t : State} (h : thenNext r f = .next t) :
    ∃ u, r = .next u ∧ t = f u := by
  cases r with
  | next u => exact ⟨u, rfl, by injection h with h; exact h.symm⟩
  | fault e => cases h
  | refused e => cases h

/-- The index premise, as two facts (R166). -/
theorem indexAdmitted_iff (s : State) (idx : Nat) :
    indexAdmitted s idx = true ↔ (∀ n, s.lastIdx = some n → n < idx) ∧ idx < 2 ^ s.params.wIdx := by
  unfold indexAdmitted
  cases s.lastIdx <;> simp

theorem edge_fall_iff (p : Option Bool) (c : Bool) : edge p c = .fall ↔ p = some true ∧ c = false := by
  rcases p with _ | (_ | _) <;> cases c <;> simp [edge]

theorem edge_rise_iff (p : Option Bool) (c : Bool) : edge p c = .rise ↔ p = some false ∧ c = true := by
  rcases p with _ | (_ | _) <;> cases c <;> simp [edge]

/-- Whether the phase consumes the edge (R94). -/
def consumes : Phase → Edge → Bool
  | .waitFall, .fall => true
  | .waitFall, .rise => false
  | .waitFall, .noEdge => false
  | .waitRiseSilent, .rise => true
  | .waitRiseSilent, .fall => false
  | .waitRiseSilent, .noEdge => false
  | .waitRiseEmit, .rise => true
  | .waitRiseEmit, .fall => false
  | .waitRiseEmit, .noEdge => false

/-- What the phase action of an admitted sample can do (R100 to R104, R109, R110). -/
inductive PhaseCase (S : Sample) (c : Bool) (s : State) : State → Prop where
  | eightBit (rs rw : Bool) (hp : s.phase = .waitFall) (he : s.prevClk = some true) (hc : c = false)
      (hm : s.mode = .eightBit) (hrs : S.rs.level = some rs) (hrw : S.rw.level = some rw) :
      PhaseCase S c s (completed (decodeCW (packCW rs rw (sampleToByte S))) (eightBitStart S s))
  | firstNibble (hp : s.phase = .waitFall) (he : s.prevClk = some true) (hc : c = false)
      (hm : s.mode = .fourBitFirstNibble) : PhaseCase S c s (firstNibbleAction S s)
  | secondNibble (rs rw : Bool) (hp : s.phase = .waitFall) (he : s.prevClk = some true)
      (hc : c = false) (hm : s.mode = .fourBitSecondNibble) (hrs : S.rs.level = some rs)
      (hrw : S.rw.level = some rw) :
      PhaseCase S c s (completed (decodeCW (packCW rs rw (reassemble s.pend (sampleToByte S))))
        (secondNibbleStart S s))
  | ignored (hp : s.phase = .waitFall) (he : s.prevClk = some true) (hc : c = false)
      (hm : s.mode = .ignored) : PhaseCase S c s (ignoredAction s)
  | rise (hp : s.phase ≠ .waitFall) (he : s.prevClk = some false) (hc : c = true) :
      PhaseCase S c s (resumeWaitFall s)
  | skip (hn : consumes s.phase (edge s.prevClk c) = false) : PhaseCase S c s s

theorem phaseAction_next {S : Sample} {c : Bool} {s u : State} (h : phaseAction S c s = .next u) :
    PhaseCase S c s u := by
  cases hp : s.phase <;> cases he : edge s.prevClk c <;> simp only [phaseAction, hp, he] at h
  case waitFall.fall =>
    obtain ⟨hclk, hc⟩ := (edge_fall_iff _ _).1 he
    unfold fallingAction at h
    split at h
    · rename_i hm
      obtain ⟨rs, rw, hrs, hrw, rfl⟩ := completeSample_next h
      exact .eightBit rs rw hp hclk hc hm hrs hrw
    · rename_i hm
      cases h
      exact .firstNibble hp hclk hc hm
    · rename_i hm
      obtain ⟨rs, rw, hrs, hrw, rfl⟩ := completeSample_next h
      exact .secondNibble rs rw hp hclk hc hm hrs hrw
    · rename_i hm
      cases h
      exact .ignored hp hclk hc hm
  case waitRiseSilent.rise =>
    obtain ⟨hclk, hc⟩ := (edge_rise_iff _ _).1 he
    cases h
    exact .rise (by simp [hp]) hclk hc
  case waitRiseEmit.rise =>
    obtain ⟨hclk, hc⟩ := (edge_rise_iff _ _).1 he
    cases h
    exact .rise (by simp [hp]) hclk hc
  all_goals
    cases h
    exact .skip (by simp [hp, he, consumes])

/-- What an admitted sample does. -/
theorem sampleStep_next {S : Sample} {s t : State} (h : sampleStep S s = .next t) :
    ∃ c u, S.clk.level = some c ∧ (∀ n, s.lastIdx = some n → n < S.idx) ∧
      S.idx < 2 ^ s.params.wIdx ∧ PhaseCase S c s u ∧
      t = finishSample S.idx c (emission S.idx c s) u := by
  unfold sampleStep at h
  split at h
  · cases h
  · rename_i c hc
    split at h
    · rename_i hi
      obtain ⟨u, hu, rfl⟩ := thenNext_next h
      obtain ⟨h1, h2⟩ := (indexAdmitted_iff _ _).1 hi
      exact ⟨c, u, hc, h1, h2, phaseAction_next hu, rfl⟩
    · cases h

/-- The annotation an emitting rise gives, and that nothing else gives one (R110). -/
theorem emission_eq (idx : Nat) (c : Bool) (s : State) :
    emission idx c s =
      if s.phase = .waitRiseEmit ∧ s.prevClk = some false ∧ c = true then
        some { startIdx := s.tStart, endIdx := idx, record := s.tRec }
      else none := by
  unfold emission
  rcases hp : s.prevClk with _ | (_ | _) <;> cases s.phase <;> cases c <;> simp [edge]

/-- What a block cycle does: reset, nothing, or an admitted sample's step. -/
theorem blockCycle_next {c : BlockCycle} {s t : State} (h : blockCycle c s = .next t) :
    (c.rst = true ∧ t = applyReset c.cfg4bit s) ∨
    (c.rst = false ∧ c.sValid = false ∧ t = outputCycle none s) ∨
    (c.rst = false ∧ c.sValid = true ∧ sampleStep (portSample c) s = .next t) := by
  unfold blockCycle at h
  split at h
  · rename_i hr
    injection h with h
    exact .inl ⟨hr, h.symm⟩
  · rename_i hr
    have hr : c.rst = false := by simpa using hr
    split at h
    · rename_i hv
      exact .inr (.inr ⟨hr, hv, h⟩)
    · rename_i hv
      injection h with h
      exact .inr (.inl ⟨hr, by simpa using hv, h.symm⟩)

/-- What a step does: the block cycle at the front of the inputs. -/
theorem step_next {s t : State} (h : step s = .next t) :
    ∃ c rest, s.inputs = c :: rest ∧ blockCycle c { s with inputs := rest } = .next t := by
  unfold step at h
  split at h
  · cases h
  · rename_i c rest hs
    exact ⟨c, rest, hs, h⟩

theorem step_cons {s : State} {c : BlockCycle} {rest : List BlockCycle} (h : s.inputs = c :: rest) :
    step s = blockCycle c { s with inputs := rest } := by
  simp [step, h]

/-- The parameters never change. -/
theorem step_params {s t : State} (h : step s = .next t) : t.params = s.params := by
  obtain ⟨c, rest, -, h⟩ := step_next h
  obtain ⟨-, rfl⟩ | ⟨-, -, rfl⟩ | ⟨-, -, h⟩ := blockCycle_next h
  · rfl
  · rfl
  · obtain ⟨c, u, -, -, -, hu, rfl⟩ := sampleStep_next h
    cases hu <;> rfl

/-- A step takes exactly one block cycle off the inputs. -/
theorem step_inputs {s t : State} (h : step s = .next t) : ∃ c, s.inputs = c :: t.inputs := by
  obtain ⟨c, rest, hs, h⟩ := step_next h
  refine ⟨c, ?_⟩
  rw [hs]
  obtain ⟨-, rfl⟩ | ⟨-, -, rfl⟩ | ⟨-, -, h⟩ := blockCycle_next h
  · rfl
  · rfl
  · obtain ⟨c, u, -, -, -, hu, rfl⟩ := sampleStep_next h
    cases hu <;> rfl

end Sys2Proof.Machine
end

