-- ==== Sys2Proof/Laws/Labels.lean ====
section
/-! SUPPORT. A renderer that meets every constraint of R147, so that statements about renderers are not
empty. The model does not use it: `Config.renderLabels` stays open. -/

namespace Sys2Proof.Machine

/-- The text of the verbose label. -/
def referenceText (cat : BitVec 4) (value : Byte) (addr : BitVec 7) (inc shift width8 : Bool) :
    List Char :=
  if cat = Category.entryModeSet.code then
    "Entry mode ".toList ++ (if inc then "inc" else "dec").toList ++ " shift ".toList ++
      (if shift then "true" else "false").toList
  else if cat = Category.functionSet.code then
    "Function set ".toList ++ (if width8 then "8-bit" else "4-bit").toList
  else if cat = Category.setCGRAMAddress.code then
    "Set CGRAM Address ".toList ++ (hexText (addr.zeroExtend 8)).toList
  else if cat = Category.setDDRAMAddress.code then
    "Set DDRAM Address ".toList ++ (hexText (addr.zeroExtend 8)).toList
  else if cat = Category.memoryWrite.code then
    "Write ".toList ++ (hexText value).toList ++ [' '] ++
      (String.ofList ['\'', Char.ofNat value.toNat, '\'']).toList
  else if cat = Category.warning.code then "Unknown ".toList ++ (binaryText value).toList
  else "Fixed".toList

/-- Two labels: the text behind a mark, and the mark. -/
def referenceRenderer : Renderer := fun cat value addr inc shift width8 =>
  [String.ofList ('#' :: referenceText cat value addr inc shift width8), "#"]

/-- What stands in the text stands in a label. -/
theorem shows_of_text {c : BitVec 4} {v : Byte} {a : BitVec 7} {i s w : Bool} {text : String}
    (pre post : List Char) (h : referenceText c v a i s w = pre ++ text.toList ++ post) :
    Shows (referenceRenderer c v a i s w) text :=
  ⟨_, List.mem_cons_self, '#' :: pre, post, by rw [String.toList_ofList, h]; simp⟩

theorem referenceRenderer_matches : RendererMatchesDocument referenceRenderer where
  countAndLast c v a i s w := ⟨by simp [referenceRenderer], by simp [referenceRenderer],
    "#", by simp [referenceRenderer], by decide⟩
  verbosityOrder c v a i s w := by
    simp [referenceRenderer, String.length_ofList]
  busyFlagFixed _ _ := by simp [referenceRenderer, referenceText, Category.code]
  displayControlPlaceholder _ _ := by simp [referenceRenderer, referenceText, Category.code]
  displayShiftPlaceholder _ _ := by simp [referenceRenderer, referenceText, Category.code]
  memoryReadPlaceholder _ _ := by simp [referenceRenderer, referenceText, Category.code]
  entryModeDirection v i :=
    ⟨shows_of_text "Entry mode ".toList (" shift ".toList ++ "false".toList)
        (by simp [referenceText]),
      shows_of_text ("Entry mode ".toList ++ (if i then "inc" else "dec").toList ++ " shift ".toList) []
        (by simp [referenceText])⟩
  functionSetWidth v w := shows_of_text "Function set ".toList []
    (by simp [referenceText, Category.code])
  cgramAddressShown v a := shows_of_text "Set CGRAM Address ".toList []
    (by simp [referenceText, Category.code])
  ddramAddressShown v a := shows_of_text "Set DDRAM Address ".toList []
    (by simp [referenceText, Category.code])
  memoryWriteHex v := shows_of_text "Write ".toList
    ([' '] ++ (String.ofList ['\'', Char.ofNat v.toNat, '\'']).toList)
    (by simp [referenceText, Category.code])
  memoryWriteChar v _ _ := shows_of_text ("Write ".toList ++ (hexText v).toList ++ [' ']) []
    (by simp [referenceText, Category.code])
  warningBinary v := shows_of_text "Unknown ".toList []
    (by simp [referenceText, Category.code])

end Sys2Proof.Machine
end

