-- ==== Sys2Proof/Laws/Operands.lean ====
section
/-! SUPPORT. The bits of the operand forms and of the classification word. -/

namespace Sys2Proof.Machine

/-- Bit k of a packed byte is its k-th bit. -/
theorem packByte_bits (b7 b6 b5 b4 b3 b2 b1 b0 : Bool) :
    (packByte b7 b6 b5 b4 b3 b2 b1 b0).getLsbD 0 = b0 ∧
    (packByte b7 b6 b5 b4 b3 b2 b1 b0).getLsbD 1 = b1 ∧
    (packByte b7 b6 b5 b4 b3 b2 b1 b0).getLsbD 2 = b2 ∧
    (packByte b7 b6 b5 b4 b3 b2 b1 b0).getLsbD 3 = b3 ∧
    (packByte b7 b6 b5 b4 b3 b2 b1 b0).getLsbD 4 = b4 ∧
    (packByte b7 b6 b5 b4 b3 b2 b1 b0).getLsbD 5 = b5 ∧
    (packByte b7 b6 b5 b4 b3 b2 b1 b0).getLsbD 6 = b6 ∧
    (packByte b7 b6 b5 b4 b3 b2 b1 b0).getLsbD 7 = b7 := by
  revert b7 b6 b5 b4 b3 b2 b1 b0
  decide

/-- The data bit of a port line is its level where it is known. -/
theorem dataBit_lineState (known level : Bool) :
    (lineState known level).dataBit = (level && known) := by
  cases known <;> cases level <;> rfl

/-- The parts of a packed classification word. -/
theorem packCW_parts (rs rw : Bool) (v : Byte) :
    cwRs (packCW rs rw v) = rs ∧ cwRw (packCW rs rw v) = rw ∧ cwValue (packCW rs rw v) = v := by
  revert v
  cases rs <;> cases rw <;> decide

/-- A classification word is the packing of its parts. -/
theorem packCW_of_parts (cw : CW) : packCW (cwRs cw) (cwRw cw) (cwValue cw) = cw := by
  revert cw
  decide

/-- Decoding a packed classification word is the path selection. -/
theorem decodeCW_packCW (rs rw : Bool) (v : Byte) : decodeCW (packCW rs rw v) = selectPath v rs rw := by
  obtain ⟨h1, h2, h3⟩ := packCW_parts rs rw v
  simp [decodeCW, h1, h2, h3]

/-- The reassembled value is the sum of the nibbles, at most 30 (R105). -/
theorem reassemble_toNat (p : Nibble) (b : Byte) :
    (reassemble p b).toNat = b.toNat / 16 + p.toNat ∧ (reassemble p b).toNat ≤ 30 := by
  have key : ∀ m n : Nibble, (m.zeroExtend 8 + n.zeroExtend 8 : Byte).toNat = m.toNat + n.toNat ∧
      (m.zeroExtend 8 + n.zeroExtend 8 : Byte).toNat ≤ 30 := by decide
  have high : (highNibble b).toNat = b.toNat / 16 := by
    revert b
    decide
  obtain ⟨h1, h2⟩ := key (highNibble b) p
  exact ⟨h1.trans (by rw [high]), h2⟩

/-- The low nibble as a number. -/
theorem lowNibble_toNat (a : Byte) : (lowNibble a).toNat = a.toNat % 16 := by
  revert a
  decide

end Sys2Proof.Machine
end

