-- ==== Sys2Proof/Laws/PerInstr.lean ====
section
/-! SUPPORT. A law of the instruction as syntax, made per instruction (LAWS.json). -/

namespace Sys2Proof.Laws.WordMatchesRow

/-- A well-formed instruction's word matches its own row of the opcode map (R66, R68). -/
def Statement (i : Instr) : Prop := WellFormed i = true → i.rowSelects (encode i) = true

theorem clearDisplay (v : Byte) : Statement (.clearDisplay v) := by
  revert v
  unfold Statement
  decide

theorem returnHome (v : Byte) : Statement (.returnHome v) := by
  revert v
  unfold Statement
  decide

theorem entryModeSet (v : Byte) : Statement (.entryModeSet v) := by
  revert v
  unfold Statement
  decide

theorem displayControl (v : Byte) : Statement (.displayControl v) := by
  revert v
  unfold Statement
  decide

theorem displayShift (v : Byte) : Statement (.displayShift v) := by
  revert v
  unfold Statement
  decide

theorem functionSet (v : Byte) : Statement (.functionSet v) := by
  revert v
  unfold Statement
  decide

theorem setCGRAMAddress (v : Byte) : Statement (.setCGRAMAddress v) := by
  revert v
  unfold Statement
  decide

theorem setDDRAMAddress (v : Byte) : Statement (.setDDRAMAddress v) := by
  revert v
  unfold Statement
  decide

theorem readBusyFlagAndAddressCounter (v : Byte) : Statement (.readBusyFlagAndAddressCounter v) := by
  revert v
  unfold Statement
  decide

theorem memoryWrite (v : Byte) : Statement (.memoryWrite v) := by
  revert v
  unfold Statement
  decide

theorem memoryRead (v : Byte) : Statement (.memoryRead v) := by
  revert v
  unfold Statement
  decide

theorem warning (v : Byte) : Statement (.warning v) := by
  revert v
  unfold Statement
  decide

end Sys2Proof.Laws.WordMatchesRow
end

