-- ==== Sys2Proof/Laws/Run.lean ====
section
/-! SUPPORT. Runs: one step at a time, and the induction over them, packaged once for all steps and once for
runs without a reset. -/

namespace Sys2Proof.Machine

/-- On any machine, a run of `k + 1` steps is a step and, from a next state, a run of `k`. -/
theorem coreRun_succ (M : Host.Core) (k : Nat) (s : M.State) :
    (∀ u, M.step s = .next u → M.run (k + 1) s = M.run k u) ∧
    (∀ r, M.step s = .fault r → M.run (k + 1) s = .fault r) ∧
    (∀ r, M.step s = .refused r → M.run (k + 1) s = .refused r) := by
  refine ⟨?_, ?_, ?_⟩ <;> intro r h <;> rw [Host.Core.run, h]

theorem runSteps_zero (s : State) : runSteps 0 s = .next s := rfl

theorem runSteps_succ_next {k : Nat} {s u : State} (h : step s = .next u) :
    runSteps (k + 1) s = runSteps k u := (coreRun_succ Sys2Proof.core k s).1 u h

theorem runSteps_succ_fault {k : Nat} {s : State} {e : Fault} (h : step s = .fault e) :
    runSteps (k + 1) s = .fault e := (coreRun_succ Sys2Proof.core k s).2.1 e h

theorem runSteps_succ_refused {k : Nat} {s : State} {e : Refusal} (h : step s = .refused e) :
    runSteps (k + 1) s = .refused e := (coreRun_succ Sys2Proof.core k s).2.2 e h

theorem runsTo_zero {s t : State} : RunsTo 0 s t ↔ s = t := by
  unfold RunsTo
  rw [runSteps_zero]
  exact ⟨fun h => by injection h, fun h => by rw [h]⟩

theorem runsTo_succ {k : Nat} {s t : State} :
    RunsTo (k + 1) s t ↔ ∃ u, step s = .next u ∧ RunsTo k u t := by
  unfold RunsTo
  cases hs : step s with
  | next u =>
    rw [runSteps_succ_next hs]
    exact ⟨fun h => ⟨u, rfl, h⟩, fun ⟨v, hv, h⟩ => by injection hv with hv; rwa [hv]⟩
  | fault e =>
    rw [runSteps_succ_fault hs]
    exact ⟨(nomatch ·), fun ⟨v, hv, _⟩ => nomatch hv⟩
  | refused e =>
    rw [runSteps_succ_refused hs]
    exact ⟨(nomatch ·), fun ⟨v, hv, _⟩ => nomatch hv⟩

/-- What every step keeps, every run keeps. -/
theorem runsTo_keeps (P : State → Prop) (keep : ∀ s t, P s → step s = .next t → P t) :
    ∀ {k : Nat} {s t : State}, P s → RunsTo k s t → P t := by
  intro k
  induction k with
  | zero =>
    intro s t hs h
    rwa [← runsTo_zero.1 h]
  | succ k ih =>
    intro s t hs h
    obtain ⟨u, hu, h⟩ := runsTo_succ.1 h
    exact ih (keep s u hs hu) h

/-- A run without reset starts with a cycle without reset, and goes on without reset. -/
theorem noResetIn_succ {k : Nat} {s : State} {c : BlockCycle} {rest : List BlockCycle}
    (hi : s.inputs = c :: rest) :
    NoResetIn (k + 1) s ↔ c.rst = false ∧ ∀ t : State, t.inputs = rest → NoResetIn k t := by
  unfold NoResetIn
  rw [hi]
  simp only [List.take_succ_cons, List.mem_cons, forall_eq_or_imp]
  refine and_congr_right fun _ => ⟨fun h t ht => by rwa [ht], fun h => ?_⟩
  exact h { s with inputs := rest } rfl

/-- What a step without reset does: the output side alone, or an admitted sample's step. -/
inductive StepCase (s : State) : State → Prop where
  | idle (rest : List BlockCycle) : StepCase s (outputCycle none { s with inputs := rest })
  | sample (c : BlockCycle) (rest : List BlockCycle) (b : Bool) (u : State)
      (hi : s.inputs = c :: rest) (hv : c.sValid = true)
      (hc : (portSample c).clk.level = some b) (hn : ∀ n, s.lastIdx = some n → n < c.sIdx)
      (hw : c.sIdx < 2 ^ s.params.wIdx)
      (hu : PhaseCase (portSample c) b { s with inputs := rest } u) :
      StepCase s (finishSample c.sIdx b (emission c.sIdx b s) u)

theorem step_noReset {k : Nat} {s t : State} (hn : NoResetIn (k + 1) s) (h : step s = .next t) :
    NoResetIn k t ∧ StepCase s t := by
  obtain ⟨c, hc⟩ := step_inputs h
  obtain ⟨hr, hk⟩ := (noResetIn_succ hc).1 hn
  refine ⟨hk t rfl, ?_⟩
  obtain ⟨c', rest, hs, hb⟩ := step_next h
  rw [hc] at hs
  injection hs with h1 hrest
  subst h1
  obtain ⟨hr', -⟩ | ⟨-, -, rfl⟩ | ⟨-, hv, hb⟩ := blockCycle_next hb
  · rw [hr] at hr'
    cases hr'
  · exact .idle rest
  · obtain ⟨b, u, hclk, h1, h2, hu, rfl⟩ := sampleStep_next hb
    exact .sample c rest b u (by rw [hc, hrest]) hv hclk h1 h2 hu

/-- What every step without reset keeps, every run without reset keeps. -/
theorem runsTo_keeps_noReset (P : State → Prop) (keep : ∀ s t, P s → StepCase s t → P t) :
    ∀ {k : Nat} {s t : State}, P s → NoResetIn k s → RunsTo k s t → P t := by
  intro k
  induction k with
  | zero =>
    intro s t hs _ h
    rwa [← runsTo_zero.1 h]
  | succ k ih =>
    intro s t hs hn h
    obtain ⟨u, hu, h⟩ := runsTo_succ.1 h
    obtain ⟨hn, hc⟩ := step_noReset hn hu
    exact ih (keep s u hs hc) hn h

end Sys2Proof.Machine
end

