-- ==== Sys2Proof/Laws/Stream.lean ====
section
/-! SUPPORT. The step on an offered sample, and what the samples of the stream notation are on the ports. -/

namespace Sys2Proof.Machine

/-- The step on an admitted sample: its phase action, then the end of its step. -/
theorem step_offers {s : State} {S : Sample} {c : Bool} {rest : List BlockCycle}
    (h : Offers s S c rest) :
    step s = thenNext (phaseAction S c { s with inputs := rest })
      (finishSample S.idx c (emission S.idx c { s with inputs := rest })) := by
  obtain ⟨cyc, hi, hr, hv, rfl, hc, h1, h2⟩ := h
  have hadm : indexAdmitted { s with inputs := rest } (portSample cyc).idx = true :=
    (indexAdmitted_iff _ _).2 ⟨h1, h2⟩
  rw [step_cons hi]
  simp only [blockCycle, hr, hv, sampleStep, hc]
  simp [hadm]

theorem bitLine_level (b : Bool) : (bitLine b).level = some b := by cases b <;> rfl

/-- A line's two port bits code the line. -/
theorem lineState_of_bits (x : LineState) : lineState x.knownBit x.lvlBit = x := by cases x <;> rfl

/-- Eleven lines laid out as R62 has them: RS, CLK and RW at bits 0, 1 and 10. -/
theorem portBits_controls : ∀ (rw clk rs : Bool) (d : Byte),
    (BitVec.ofBool rw ++ d ++ BitVec.ofBool clk ++ BitVec.ofBool rs : LineBits).getLsbD 0 = rs ∧
    (BitVec.ofBool rw ++ d ++ BitVec.ofBool clk ++ BitVec.ofBool rs : LineBits).getLsbD 1 = clk ∧
    (BitVec.ofBool rw ++ d ++ BitVec.ofBool clk ++ BitVec.ofBool rs : LineBits).getLsbD 10 = rw := by
  decide

/-- And D0 to D7 at bits 2 to 9. -/
theorem portBits_data : ∀ (rw clk rs : Bool) (d : Byte),
    (BitVec.ofBool rw ++ d ++ BitVec.ofBool clk ++ BitVec.ofBool rs : LineBits).extractLsb' 2 8 = d := by
  decide

section Smp
variable (f : Bool) (n : Nat) (rs clk : LineState) (d : DataLines) (rw : LineState)

@[simp] theorem smpCycle_rst : (smpCycle f n rs clk d rw).rst = false := rfl

@[simp] theorem smpCycle_sValid : (smpCycle f n rs clk d rw).sValid = true := rfl

@[simp] theorem smpCycle_sIdx : (smpCycle f n rs clk d rw).sIdx = n := rfl

@[simp] theorem smpCycle_idx : (portSample (smpCycle f n rs clk d rw)).idx = n := rfl

@[simp] theorem smpCycle_rs : (portSample (smpCycle f n rs clk d rw)).rs = rs := by
  unfold portSample smpCycle
  simp only [(portBits_controls _ _ _ _).1, lineState_of_bits]

@[simp] theorem smpCycle_clk : (portSample (smpCycle f n rs clk d rw)).clk = clk := by
  unfold portSample smpCycle
  simp only [(portBits_controls _ _ _ _).2.1, lineState_of_bits]

@[simp] theorem smpCycle_rw : (portSample (smpCycle f n rs clk d rw)).rw = rw := by
  unfold portSample smpCycle
  simp only [(portBits_controls _ _ _ _).2.2, lineState_of_bits]

end Smp

/-- A `smp` at an admitted index offers its sample. -/
theorem offers_smp {s : State} {f : Bool} {n : Nat} {rs clk rw : LineState} {d : DataLines} {c : Bool}
    {rest : List BlockCycle} (hi : s.inputs = smpCycle f n rs clk d rw :: rest)
    (hc : clk.level = some c) (hl : ∀ m, s.lastIdx = some m → m < n) (hw : n < 2 ^ s.params.wIdx) :
    Offers s (portSample (smpCycle f n rs clk d rw)) c rest :=
  ⟨_, hi, rfl, rfl, rfl, by rw [smpCycle_clk]; exact hc, hl, hw⟩

end Sys2Proof.Machine
end

