-- ==== Sys2Proof/Tests/Slice0.lean ====
section
/-! SUPPORT. Tests and witnesses. A test's expected values are those of spec/95_test_vectors.md (the table or
section is named), worked out there by hand from the rules; `witness_X` shows inputs that meet the
hypotheses of the obligation `X`, at the boundaries of its clauses. -/

namespace Sys2Proof.Tests

open Sys2Proof.Machine

/-! ### Helpers -/

/-- A view of the next state, where there is one. -/
def nextView {α : Type} (f : State → α) : Result → Option α
  | .next s => some (f s)
  | .fault _ => none
  | .refused _ => none

/-- The refusal, where there is one. -/
def refusalOf : Result → Option Refusal
  | .next _ => none
  | .fault _ => none
  | .refused e => some e

/-- Port levels with `rst = 0`, as the tables of section 3 write them. -/
def ports (idx : Nat) (lvl known : LineBits) : BlockCycle :=
  { rst := false, cfg4bit := false, sValid := true, sIdx := idx, sLvl := lvl, sKnown := known }

/-- A cycle that offers no sample. -/
def gap : BlockCycle :=
  { rst := false, cfg4bit := true, sValid := false, sIdx := 0, sLvl := 0x7FF, sKnown := 0x7FF }

/-- The state after `.cfg 8bit` and `idle`, with the next cycles given: clock high, index 0 admitted. -/
def afterIdle (m : Mode) (inputs : List BlockCycle) : State :=
  { State.reset with mode := m, prevClk := some true, lastIdx := some 0, inputs := inputs }

/-- Mode, record, phase and start stamp after one completion sample in 8-bit mode. -/
def completion (lvl : LineBits) : Option (Mode × Record × Phase × Nat) :=
  nextView (fun s => (s.mode, s.tRec, s.phase, s.tStart)) (step (afterIdle .eightBit [ports 1 lvl 0x7FF]))

/-- A record whose other fields are 0. -/
def record (cat : Category) (value : Byte) : Record :=
  { cat := cat, value := value, addr := 0, inc := false, shift := false, width8 := false }

/-! ### WellFormed smoke: each range check refuses a value outside it -/

theorem test_wf_refuses_clearDisplay_2 : WellFormed (.clearDisplay 2) = false := by decide
theorem test_wf_refuses_returnHome_1 : WellFormed (.returnHome 1) = false := by decide
theorem test_wf_refuses_entryModeSet_8 : WellFormed (.entryModeSet 8) = false := by decide
theorem test_wf_refuses_displayControl_7 : WellFormed (.displayControl 7) = false := by decide
theorem test_wf_refuses_displayShift_32 : WellFormed (.displayShift 32) = false := by decide
theorem test_wf_refuses_functionSet_64 : WellFormed (.functionSet 64) = false := by decide
theorem test_wf_refuses_setCGRAMAddress_63 : WellFormed (.setCGRAMAddress 63) = false := by decide
theorem test_wf_refuses_setDDRAMAddress_127 : WellFormed (.setDDRAMAddress 127) = false := by decide

/-! ### Decoding, words written from the encoding {RS, RW, value} of R66 and the rows of R68 -/

theorem test_decode_clearDisplay : decode 0b00_00000001 = .ok (.clearDisplay 0x01) := by decide
theorem test_decode_returnHome : decode 0b00_00000011 = .ok (.returnHome 0x03) := by decide
theorem test_decode_entryModeSet : decode 0b00_00000110 = .ok (.entryModeSet 0x06) := by decide
theorem test_decode_displayControl : decode 0b00_00001111 = .ok (.displayControl 0x0F) := by decide
theorem test_decode_displayShift : decode 0b00_00010000 = .ok (.displayShift 0x10) := by decide
theorem test_decode_functionSet : decode 0b00_00100000 = .ok (.functionSet 0x20) := by decide
theorem test_decode_setCGRAMAddress : decode 0b00_01111111 = .ok (.setCGRAMAddress 0x7F) := by decide
/-- Section 2.4: row 21 is CW 0x0CB. -/
theorem test_decode_setDDRAMAddress : decode 0x0CB = .ok (.setDDRAMAddress 0xCB) := by decide
/-- Section 2.4: row 24 is CW 0x138. -/
theorem test_decode_readBusyFlag : decode 0x138 = .ok (.readBusyFlagAndAddressCounter 0x38) := by decide
/-- Section 2.4: row 28 is CW 0x228. -/
theorem test_decode_memoryWrite : decode 0x228 = .ok (.memoryWrite 0x28) := by decide
theorem test_decode_memoryRead : decode 0b11_00000000 = .ok (.memoryRead 0x00) := by decide
theorem test_decode_warning_row : decode 0x400 = .ok (.warning 0) := by decide
theorem test_decode_rejects_bit_11 : decode 0x800 = .error .bitsBeyondTable := by decide

/-! ### One step per instruction, the rows of sections 1 and 2.4 -/

theorem test_clearDisplay : completion 0x004 =
    some (.eightBit, record .clearDisplay 0x01, .waitRiseEmit, 1) := by decide
theorem test_returnHome_03 : completion 0x00C =
    some (.eightBit, record .returnHome 0x03, .waitRiseEmit, 1) := by decide
/-- Row 7: bit 1 is not the direction, and shift stays 0. -/
theorem test_entryModeSet_06 : completion 0x018 =
    some (.eightBit, record .entryModeSet 0x06, .waitRiseEmit, 1) := by decide
/-- Row 6. -/
theorem test_entryModeSet_05 : completion 0x014 =
    some (.eightBit, { record .entryModeSet 0x05 with inc := true }, .waitRiseEmit, 1) := by decide
theorem test_displayControl_0F : completion 0x03C =
    some (.eightBit, record .displayControl 0x0F, .waitRiseEmit, 1) := by decide
theorem test_displayShift_1F : completion 0x07C =
    some (.eightBit, record .displayShift 0x1F, .waitRiseEmit, 1) := by decide
/-- Row 14, and row 3 of section 2.3.3. -/
theorem test_functionSet_2F : completion 0x0BC =
    some (.fourBitFirstNibble, record .functionSet 0x2F, .waitRiseEmit, 1) := by decide
/-- Row 15. -/
theorem test_functionSet_30 : completion 0x0C0 =
    some (.eightBit, { record .functionSet 0x30 with width8 := true }, .waitRiseEmit, 1) := by decide
/-- Section 1.5. -/
theorem test_setCGRAMAddress_60 : completion 0x180 =
    some (.eightBit, { record .setCGRAMAddress 0x60 with addr := 0x20 }, .waitRiseEmit, 1) := by decide
/-- Row 19. -/
theorem test_setCGRAMAddress_7F : completion 0x1FC =
    some (.eightBit, { record .setCGRAMAddress 0x7F with addr := 0x3F }, .waitRiseEmit, 1) := by decide
/-- Section 1.6. -/
theorem test_setDDRAMAddress_CB : completion 0x32C =
    some (.eightBit, { record .setDDRAMAddress 0xCB with addr := 0x4B }, .waitRiseEmit, 1) := by decide
/-- Row 22. -/
theorem test_setDDRAMAddress_FF : completion 0x3FC =
    some (.eightBit, { record .setDDRAMAddress 0xFF with addr := 0x7F }, .waitRiseEmit, 1) := by decide
/-- Row 24: the read path is taken before the thresholds, so the mode is not written. -/
theorem test_readBusyFlag_38 : completion 0x4E0 =
    some (.eightBit, record .readBusyFlagAndAddressCounter 0x38, .waitRiseEmit, 1) := by decide
/-- Section 1.3. -/
theorem test_memoryWrite_41 : completion 0x105 =
    some (.eightBit, record .memoryWrite 0x41, .waitRiseEmit, 1) := by decide
/-- Row 28: with RS = 1 it is no FunctionSet. -/
theorem test_memoryWrite_28 : completion 0x0A1 =
    some (.eightBit, record .memoryWrite 0x28, .waitRiseEmit, 1) := by decide
/-- Row 30. -/
theorem test_memoryRead_FF : completion 0x7FD =
    some (.eightBit, record .memoryRead 0xFF, .waitRiseEmit, 1) := by decide
/-- R142's pseudocode: the record carries the raw value. -/
theorem test_warning : nextView State.tRec (exec (.warning 0x41) State.reset) =
    some (record .warning 0x41) := by decide

/-! ### Sampler, edge test and reassembly -/

/-- Section 2.1, rows 1 to 10, and its two corners. -/
theorem test_sampler_rows :
    ([(0x00, 0xFF), (0x00, 0x00), (0xFF, 0x00), (0xFF, 0xFF), (0x01, 0xFF), (0x80, 0xFF), (0xAA, 0xAA),
      (0x20, 0xF0), (0x01, 0xF1), (0x41, 0xFF)] : List (Byte × Byte)).map
        (fun p => sampleToByte (portSample (smpCycle false 0 .low .low ⟨p.1, p.2⟩ .low))) =
      [0x00, 0x00, 0x00, 0xFF, 0x01, 0x80, 0xAA, 0x20, 0x01, 0x41] ∧
    sampleToByte (portSample (ports 0 0x7FD 0x7FF)) = 0xFF ∧
    sampleToByte (portSample (ports 0 0x403 0x7FF)) = 0x00 := by decide

/-- Section 2.2, rows 1 to 6. -/
theorem test_edge_rows :
    [edge none false, edge none true, edge (some true) false, edge (some false) true,
      edge (some false) false, edge (some true) true] =
    [.noEdge, .noEdge, .fall, .rise, .noEdge, .noEdge] := by decide

/-- Section 2.3.2, rows 1 to 13. -/
theorem test_reassembly_rows :
    ([(0x01, 0x00), (0x00, 0x00), (0x02, 0x20), (0x03, 0x30), (0x20, 0x80), (0x08, 0x80), (0x07, 0x90),
      (0x0A, 0x60), (0x0F, 0xF0), (0xFF, 0xFF), (0xF1, 0x0F), (0x00, 0xF0), (0x0F, 0x10)] :
        List (Byte × Byte)).map (fun p => reassemble (lowNibble p.1) p.2) =
      [0x01, 0x00, 0x04, 0x06, 0x08, 0x10, 0x10, 0x10, 0x1E, 0x1E, 0x01, 0x0F, 0x10] := by decide

/-! ### The nibble modes, the rises and the reset, one step each (section 2.3.1, programs P3 and P4) -/

/-- P3, index 5. -/
theorem test_firstNibble :
    nextView (fun s => (s.mode, s.pend, s.phase, s.tStart))
      (step (afterIdle .fourBitFirstNibble [ports 5 0x03D 0x7FF])) =
    some (.fourBitSecondNibble, 0xF, .waitRiseSilent, 5) := by decide

/-- P3, index 7: the nibbles carry. -/
theorem test_secondNibble_carries :
    nextView (fun s => (s.mode, s.tRec, s.phase, s.tStart))
      (step { afterIdle .fourBitSecondNibble [ports 7 0x041 0x7FF] with pend := 0xF, tStart := 5 }) =
    some (.fourBitFirstNibble, record .memoryWrite 0x10, .waitRiseEmit, 5) := by decide

/-- The same under `P_START4 = SecondNibble`. -/
theorem test_secondNibble_other_start :
    nextView State.tStart
      (step { afterIdle .fourBitSecondNibble [ports 7 0x041 0x7FF] with
        params := { Config.default with pStart4 := .secondNibble }, tStart := 5 }) = some 7 := by decide

/-- Row 4 of section 2.3.1. -/
theorem test_ignored :
    nextView (fun s => (s.mode, s.phase)) (step (afterIdle .ignored [ports 1 0x004 0x7FF])) =
    some (.ignored, .waitRiseSilent) := by decide

/-- Section 1.3, index 2: the record and its port levels, `OUT_LAT` being 0. -/
theorem test_emitting_rise :
    nextView (fun s => (s.phase, s.emitted, s.out))
      (step { afterIdle .eightBit [ports 2 0x107 0x7FF] with
        prevClk := some false, phase := .waitRiseEmit, tStart := 1, tRec := record .memoryWrite 0x41 }) =
    some (.waitFall, [⟨1, 2, record .memoryWrite 0x41⟩], ⟨true, 1, 2, 10, 0x41, 0, false, false, false⟩) := by
  decide

/-- P4, index 1: a rising edge met in WaitFall. -/
theorem test_rise_in_waitFall :
    nextView (fun s => (s.phase, s.prevClk, s.emitted))
      (step { State.reset with
        prevClk := some false, lastIdx := some 0, inputs := [ports 1 0x006 0x7FF] }) =
    some (.waitFall, some true, []) := by decide

/-- Section 2.6, the state straight after a reset. -/
theorem test_reset_cycle :
    nextView (fun s => (s.mode, s.phase, s.prevClk, s.out))
      (step (afterIdle .eightBit [resetCycle true])) =
    some (.fourBitFirstNibble, .waitFall, none, AnnPort.idle) := by decide

/-- Section 2.2, row 7. -/
theorem test_no_sample_is_no_step :
    nextView State.prevClk (step (afterIdle .eightBit [gap])) = some (some true) := by decide

/-! ### Refusals, section 2.5 -/

theorem test_refusal_1 :
    refusalOf (step (afterIdle .eightBit [smpCycle false 1 .low .indet (.ofByte 0) .low])) =
    some .clockIndeterminate := by decide
theorem test_refusal_2 :
    refusalOf (step (afterIdle .eightBit [smpCycle false 1 .indet .low (.ofByte 1) .low])) =
    some .ctrlIndeterminate := by decide
theorem test_refusal_3 :
    refusalOf (step (afterIdle .eightBit [smpCycle false 1 .low .low (.ofByte 1) .indet])) =
    some .ctrlIndeterminate := by decide
/-- Row 4: the first nibble's RS and RW are not read. -/
theorem test_refusal_4 :
    refusalOf (step (afterIdle .fourBitFirstNibble [smpCycle true 1 .indet .low (.ofByte 1) .indet])) =
    none := by decide
theorem test_refusal_5 :
    refusalOf (step (afterIdle .fourBitSecondNibble [smpCycle true 3 .indet .low (.ofByte 0) .low])) =
    some .ctrlIndeterminate := by decide
theorem test_refusal_7 :
    refusalOf (step { afterIdle .eightBit [smpCycle false 5 .low .low (.ofByte 1) .low] with
      lastIdx := some 5 }) = some .indexOrder := by decide
theorem test_refusal_8 :
    refusalOf (step { afterIdle .eightBit [smpCycle false 3 .low .low (.ofByte 1) .low] with
      lastIdx := some 5 }) = some .indexOrder := by decide
/-- Row 9: data `X` reads as 0. -/
theorem test_refusal_9 :
    nextView State.tRec (step (afterIdle .eightBit [smpCycle false 1 .low .low ⟨0, 0⟩ .low])) =
    some (record .clearDisplay 0x00) := by decide

/-! ### The stream notation and the fetch -/

/-- Sections 1.2 and 1.6, and P2's index 7: the port values of the notation. -/
theorem test_notation_ports :
    (assemble ([.cfg false] ++ idle ++ cmd 0xCB)).map (fun c => (c.sIdx, c.sLvl, c.sKnown)) =
      [(0, 0, 0), (0, 0x002, 0x7FF), (1, 0x32C, 0x7FF), (2, 0x32E, 0x7FF)] ∧
    (assemble (send4 .high .low 0x41)).map (fun c => (c.sLvl, c.sKnown)) =
      [(0x101, 0x7C3), (0x103, 0x7C3), (0x041, 0x7C3), (0x043, 0x7C3)] := by decide

/-- The placed word is run: row 21 of section 2.4. -/
theorem test_fetch_setDDRAMAddress :
    nextView State.tRec (step (State.reset.withFetchWord 10 0x0CB)) =
    some ({ record .setDDRAMAddress 0xCB with addr := 0x4B }) := by decide

/-- The table word and the fetched word name one instruction. -/
theorem test_decodeTableWord : decodeTableWord 10 0x228 = some (.memoryWrite 0x28) := by decide

/-! ### Witnesses of the statements' hypotheses -/

/-- A sample of the notation with index `n`, RS and RW low. -/
def smpAt (n : Nat) (clk : LineState) (v : Byte) : BlockCycle := smpCycle false n .low clk (.ofByte v) .low

/-- A state that waits to emit a MemoryWrite, with one record emitted before. -/
def waiting (inputs : List BlockCycle) : State :=
  { afterIdle .eightBit inputs with
    prevClk := some false
    phase := .waitRiseEmit
    lastIdx := some 3
    tStart := 3
    tRec := record .memoryWrite 0x41
    emitted := [⟨1, 2, record .clearDisplay 0x01⟩] }

theorem waiting_inv (inputs : List BlockCycle) : Inv (waiting inputs) where
  notIgnored h := nomatch h
  waitingClockLow _ := rfl
  secondNibblePhase h := nomatch h
  pendingRecord _ := ⟨⟨0x41, true, false, rfl⟩, 3, rfl, Nat.le_refl 3⟩
  secondNibbleStart h := nomatch h
  clockSeen := by simp [waiting]
  latency := rfl

theorem waiting_ordered (inputs : List BlockCycle) : OutputOrdered (waiting inputs) where
  spans := by simp [waiting]
  successive := by simp [waiting]
  seen := by simp [waiting]
  beforePending := by simp [waiting]

theorem waiting_classified (inputs : List BlockCycle) : OutputsClassified (waiting inputs) where
  emitted a h := by
    rw [show a = ⟨1, 2, record .clearDisplay 0x01⟩ by simpa [waiting] using h]
    exact ⟨1, false, false, rfl⟩
  onTheWay a h := by simp [waiting, afterIdle, State.reset] at h
  pending _ := ⟨0x41, true, false, rfl⟩
  port := .inl rfl

theorem witness_DecodeOfEncodeIsTheInstruction :
    WellFormed (.clearDisplay 0) = true ∧ WellFormed (.functionSet 0x3F) = true ∧
    WellFormed (.setDDRAMAddress 0xFF) = true ∧ WellFormed (.warning 0xFF) = true := by decide

/-- The cycle of R62's example; and row 3 of section 2.1, where the level bits of indeterminate lines differ. -/
theorem witness_LineStateCodesOnThePorts :
    (ports 1 0x004 0x7FF).sLvl = 0x004 ∧ (ports 1 0x004 0x7FF).sKnown = 0x7FF ∧
    (ports 4 0x002 0x403).sKnown = (ports 4 0x3FE 0x403).sKnown ∧
    (ports 4 0x002 0x403).sLvl &&& 0x403 = (ports 4 0x3FE 0x403).sLvl &&& 0x403 ∧
    (ports 4 0x002 0x403).sLvl ≠ (ports 4 0x3FE 0x403).sLvl := by decide

theorem witness_ClearDisplayResult : ∀ v ∈ [(0 : Byte), 1], 0 ≤ v.toNat ∧ v.toNat < 2 := by decide
theorem witness_ReturnHomeResult : ∀ v ∈ [(2 : Byte), 3], 2 ≤ v.toNat ∧ v.toNat < 4 := by decide
theorem witness_EntryModeSetResult : ∀ v ∈ [(4 : Byte), 7], 4 ≤ v.toNat ∧ v.toNat < 8 := by decide
theorem witness_DisplayControlResult :
    (∀ v ∈ [(8 : Byte), 15], 8 ≤ v.toNat ∧ v.toNat < 16) ∧
    RendererMatchesDocument referenceRenderer := ⟨by decide, referenceRenderer_matches⟩
theorem witness_DisplayShiftResult :
    (∀ v ∈ [(16 : Byte), 31], 16 ≤ v.toNat ∧ v.toNat < 32) ∧
    RendererMatchesDocument referenceRenderer := ⟨by decide, referenceRenderer_matches⟩
theorem witness_FunctionSetResult :
    (∀ v ∈ [(32 : Byte), 63], 32 ≤ v.toNat ∧ v.toNat < 64) ∧
    RendererMatchesDocument referenceRenderer := ⟨by decide, referenceRenderer_matches⟩
theorem witness_SetCGRAMAddressResult : ∀ v ∈ [(64 : Byte), 127], 64 ≤ v.toNat ∧ v.toNat < 128 := by
  decide
theorem witness_SetDDRAMAddressResult : ∀ v ∈ [(128 : Byte), 255], 128 ≤ v.toNat ∧ v.toNat < 256 := by
  decide
theorem witness_ReadBusyFlagAndAddressCounterResult : RendererMatchesDocument referenceRenderer :=
  referenceRenderer_matches
theorem witness_MemoryReadResult : RendererMatchesDocument referenceRenderer := referenceRenderer_matches
theorem witness_MemoryWriteResult :
    RendererMatchesDocument referenceRenderer ∧
    ∀ v ∈ [(32 : Byte), 126], 32 ≤ v.toNat ∧ v.toNat < 127 := ⟨referenceRenderer_matches, by decide⟩

/-- A run after a reset that emits a record and shows it on the port: scenario A (section 1.2). -/
theorem scenarioA_runs : ∃ t,
    RunsTo 3 (applyReset false (State.reset.withStream (idle ++ cmd 0x01))) t ∧
      t.emitted = [⟨1, 2, record .clearDisplay 0x01⟩] ∧ t.out.aValid = true := ⟨_, rfl, rfl, rfl⟩

theorem witness_WarningResult : ∃ t,
    RunsTo 3 (applyReset false (State.reset.withStream (idle ++ cmd 0x01))) t ∧ t.emitted ≠ [] := by
  obtain ⟨t, h, ht, -⟩ := scenarioA_runs
  exact ⟨t, h, by simp [ht]⟩

theorem witness_EveryMeaningCompletesWithItsFrame : ∀ v, Instr.clearDisplay 1 ≠ .functionSet v := by
  intro v h
  cases h

/-- The clause of known lines, and the clause of an indeterminate one. -/
theorem witness_EightBitFallingEdgeRunsTheDecodedInstruction :
    (∃ S, Offers (afterIdle .eightBit [smpAt 1 .low 0xFF]) S false [] ∧
      S.rs.level = some false ∧ S.rw.level = some false) ∧
    (∃ S, Offers (afterIdle .eightBit [smpCycle false 1 .indet .low (.ofByte 1) .low]) S false [] ∧
      S.rs = .indet) ∧
    (afterIdle .eightBit []).mode = .eightBit ∧ (afterIdle .eightBit []).phase = .waitFall ∧
    (afterIdle .eightBit []).prevClk = some true :=
  ⟨⟨_, offers_smp rfl rfl (by simp [afterIdle]) (by decide), by decide⟩,
    ⟨_, offers_smp rfl rfl (by simp [afterIdle]) (by decide), by decide⟩, rfl, rfl, rfl⟩

theorem witness_FirstNibbleFallingEdge :
    (∃ S, Offers (afterIdle .fourBitFirstNibble [smpCycle true 1 .indet .low (.ofByte 0xFF) .indet]) S
      false []) ∧
    (afterIdle .fourBitFirstNibble []).mode = .fourBitFirstNibble ∧
    (afterIdle .fourBitFirstNibble []).phase = .waitFall ∧
    (afterIdle .fourBitFirstNibble []).prevClk = some true :=
  ⟨⟨_, offers_smp rfl rfl (by simp [afterIdle]) (by decide)⟩, rfl, rfl, rfl⟩

/-- The clause of known lines, and the clause of an indeterminate one. -/
theorem witness_SecondNibbleFallingEdgeRunsTheDecodedInstruction :
    (∃ S, Offers (afterIdle .fourBitSecondNibble [smpAt 3 .low 0xF0]) S false [] ∧
      S.rs.level = some false ∧ S.rw.level = some false) ∧
    (∃ S, Offers (afterIdle .fourBitSecondNibble [smpCycle true 3 .low .low (.ofByte 1) .indet]) S false []
      ∧ S.rw = .indet) ∧
    (afterIdle .fourBitSecondNibble []).mode = .fourBitSecondNibble ∧
    (afterIdle .fourBitSecondNibble []).phase = .waitFall ∧
    (afterIdle .fourBitSecondNibble []).prevClk = some true :=
  ⟨⟨_, offers_smp rfl rfl (by simp [afterIdle]) (by decide), by decide⟩,
    ⟨_, offers_smp rfl rfl (by simp [afterIdle]) (by decide), by decide⟩, rfl, rfl, rfl⟩

theorem witness_IgnoredFallingEdge :
    (∃ S, Offers (afterIdle .ignored [smpAt 1 .low 0x01]) S false []) ∧
    (afterIdle .ignored []).mode = .ignored ∧ (afterIdle .ignored []).phase = .waitFall ∧
    (afterIdle .ignored []).prevClk = some true :=
  ⟨⟨_, offers_smp rfl rfl (by simp [afterIdle]) (by decide)⟩, rfl, rfl, rfl⟩

/-- A state in WaitRiseSilent, the clock low. -/
def silent (inputs : List BlockCycle) : State :=
  { afterIdle .fourBitSecondNibble inputs with prevClk := some false, phase := .waitRiseSilent }

theorem witness_SilentRise :
    (∃ S, Offers (silent [smpAt 1 .high 0x01]) S true []) ∧ (silent []).phase = .waitRiseSilent ∧
    (silent []).prevClk = some false :=
  ⟨⟨_, offers_smp rfl rfl (by simp [silent, afterIdle]) (by decide)⟩, rfl, rfl⟩

theorem witness_EmittingRise :
    (∃ S, Offers (waiting [smpAt 4 .high 0x00]) S true []) ∧ (waiting []).phase = .waitRiseEmit ∧
    (waiting []).prevClk = some false :=
  ⟨⟨_, offers_smp rfl rfl (by simp [waiting]) (by decide)⟩, rfl, rfl⟩

/-- A rise and an unchanged level in WaitFall, and an unchanged level in a rising-edge wait. -/
theorem witness_UnconsumedSampleOnlyMovesTheClock :
    (∃ S, Offers { afterIdle .eightBit [smpAt 1 .high 0x01] with prevClk := some false } S true []) ∧
    (∃ S, Offers (afterIdle .eightBit [smpAt 1 .high 0x01]) S true []) ∧
    (afterIdle .eightBit []).phase = .waitFall ∧
    (∃ S, Offers (waiting [smpAt 4 .low 0x00]) S false []) ∧
    (waiting []).phase ≠ .waitFall ∧ (waiting []).prevClk = some false :=
  ⟨⟨_, offers_smp rfl rfl (by simp [afterIdle]) (by decide)⟩,
    ⟨_, offers_smp rfl rfl (by simp [afterIdle]) (by decide)⟩, rfl,
    ⟨_, offers_smp rfl rfl (by simp [waiting]) (by decide)⟩, by decide, rfl⟩

/-- The first sample after a reset, clock low and clock high. -/
theorem witness_FirstSampleAfterResetIsNoEdge :
    (∃ S, Offers (applyReset false { State.reset with inputs := [smpAt 0 .low 0x01] }) S false []) ∧
    (∃ S, Offers (applyReset true { State.reset with inputs := [smpAt 0 .high 0x01] }) S true []) :=
  ⟨⟨_, offers_smp rfl rfl (by simp) (by decide)⟩, ⟨_, offers_smp rfl rfl (by simp) (by decide)⟩⟩

theorem witness_CycleWithoutSampleIsNoStep :
    (waiting [gap]).inputs = [gap] ∧ gap.rst = false ∧ gap.sValid = false := ⟨rfl, rfl, rfl⟩

theorem witness_ResetCycleSetsTheStartState :
    (waiting [resetCycle true]).inputs = [resetCycle true] ∧ (resetCycle true).rst = true ∧
    (resetCycle false).rst = true := ⟨rfl, rfl, rfl⟩

/-- The emitting rise, in a state that meets every invariant. -/
theorem witness_EveryStepKeepsTheInvariant :
    Inv (waiting [smpAt 4 .high 0x00]) ∧ ∃ t, step (waiting [smpAt 4 .high 0x00]) = .next t :=
  ⟨waiting_inv _, _, rfl⟩

theorem witness_EveryStepKeepsTheOutputOrder :
    Inv (waiting [smpAt 4 .high 0x00]) ∧ OutputOrdered (waiting [smpAt 4 .high 0x00]) ∧
    ∃ t, step (waiting [smpAt 4 .high 0x00]) = .next t ∧ t.emitted.length = 2 :=
  ⟨waiting_inv _, waiting_ordered _, _, rfl, rfl⟩

theorem witness_EveryRunEmitsInStrictOrder : ∃ t,
    RunsTo 3 (applyReset false (State.reset.withStream (idle ++ cmd 0x01))) t ∧
      t.emitted.length = 1 := by
  obtain ⟨t, h, ht, -⟩ := scenarioA_runs
  exact ⟨t, h, by simp [ht]⟩

/-- The completion of a second nibble at its largest value, 30. -/
theorem witness_FourBitModeEndsOnlyByReset :
    (afterIdle .fourBitSecondNibble []).mode.isFourBit = true ∧
    NoResetIn 1 (afterIdle .fourBitSecondNibble [smpAt 3 .low 0xF0]) ∧
    ∃ t, RunsTo 1 { afterIdle .fourBitSecondNibble [smpAt 3 .low 0xF0] with pend := 0xF } t ∧
      t.tRec.value = 30 :=
  ⟨rfl, by unfold NoResetIn; decide, _, rfl, rfl⟩

/-- Two states that differ in all three fields. -/
theorem witness_UnreadFieldsAreNeverObserved :
    AgreeWhereRead (afterIdle .eightBit [smpAt 1 .low 0x01])
      { afterIdle .eightBit [smpAt 1 .low 0x01] with
        pend := 0xF, tStart := 9, tRec := record .memoryRead 0xFF } where
  params := rfl
  mode := rfl
  phase := rfl
  prevClk := rfl
  out := rfl
  outPipe := rfl
  emitted := rfl
  lastIdx := rfl
  inputs := rfl
  pend h := nomatch h
  tStart h := by simp [afterIdle, State.reset] at h
  tRec h := nomatch h

theorem witness_RunsAfterResetAreIdentical :
    (waiting [smpAt 1 .low 0x01]).params = (silent [smpAt 1 .low 0x01]).params ∧
    (waiting [smpAt 1 .low 0x01]).inputs = (silent [smpAt 1 .low 0x01]).inputs ∧
    ∃ t, RunsTo 1 { applyReset true (waiting [smpAt 1 .low 0x01]) with
      pend := 0xF, tStart := 9, tRec := record .memoryRead 0xFF } t := ⟨rfl, rfl, _, rfl⟩

/-- A repeated level and a gap are dropped, the rise is kept. -/
theorem witness_TransitionOnlyStreamGivesTheSameRecords :
    (∃ t, RunsOut (waiting [smpAt 4 .low 0xFF, gap, smpAt 6 .high 0x00]) t ∧ t.emitted.length = 2) ∧
    transitionsOnly (some false) [smpAt 4 .low 0xFF, gap, smpAt 6 .high 0x00] =
      [smpAt 6 .high 0x00] := ⟨⟨_, rfl, rfl⟩, by decide⟩

/-- `OUT_LAT = 1`: the record emitted now is on the port one cycle later. -/
theorem witness_RecordReachesThePortAfterOutLat :
    ∃ s t u e, s.outPipe.length = s.params.outLat ∧ NoResetIn 1 s ∧ step s = .next t ∧
      t.emitted = s.emitted ++ [e] ∧ s.params.outLat = 1 ∧ NoResetIn 1 t ∧ RunsTo 1 t u ∧
      t.out.aValid = false ∧ u.out.aValid = true :=
  ⟨{ waiting [smpAt 4 .high 0x00, gap] with
      params := { Config.default with outLat := 1 }, outPipe := [none] }, _, _, _, rfl,
    by unfold NoResetIn; decide, rfl, rfl, rfl,
    by unfold NoResetIn; decide, rfl, rfl, rfl⟩

theorem afterIdle_inv (inputs : List BlockCycle) : Inv (afterIdle .eightBit inputs) where
  notIgnored h := nomatch h
  waitingClockLow h := absurd rfl h
  secondNibblePhase h := nomatch h
  pendingRecord h := nomatch h
  secondNibbleStart h := nomatch h
  clockSeen := by simp [afterIdle]
  latency := rfl

/-- A falling edge and a rising edge. -/
theorem witness_EdgesAlternateAndNoneIsSkipped :
    (Inv (afterIdle .eightBit [smpAt 1 .low 0x01]) ∧
      (∃ S, Offers (afterIdle .eightBit [smpAt 1 .low 0x01]) S false []) ∧
      ∃ t, step (afterIdle .eightBit [smpAt 1 .low 0x01]) = .next t) ∧
    (Inv (waiting [smpAt 4 .high 0x00]) ∧ (∃ S, Offers (waiting [smpAt 4 .high 0x00]) S true []) ∧
      ∃ t, step (waiting [smpAt 4 .high 0x00]) = .next t) :=
  ⟨⟨afterIdle_inv _, ⟨_, offers_smp rfl rfl (by simp [afterIdle]) (by decide)⟩, _, rfl⟩,
    waiting_inv _, ⟨_, offers_smp rfl rfl (by simp [waiting]) (by decide)⟩, _, rfl⟩

theorem witness_IndeterminateClockIsRefused :
    (waiting [smpAt 4 .indet 0x01]).inputs = [smpAt 4 .indet 0x01] ∧
    (smpAt 4 .indet 0x01).rst = false ∧ (smpAt 4 .indet 0x01).sValid = true ∧
    (portSample (smpAt 4 .indet 0x01)).clk = .indet := ⟨rfl, rfl, rfl, by decide⟩

/-- An index equal to the last admitted one, and the first that no longer fits in `W_IDX` bits. -/
theorem witness_IndexOutOfOrderIsRefused :
    ((waiting []).lastIdx = some 3 ∧ (smpAt 3 .high 0x01).sIdx ≤ 3 ∧
      (portSample (smpAt 3 .high 0x01)).clk ≠ .indet) ∧
    2 ^ (waiting []).params.wIdx ≤ (smpAt (2 ^ 64) .high 0x01).sIdx := by decide

/-- A completion sample with RW indeterminate, and a sample that is no completion sample. -/
theorem witness_ControlLinesAreReadAtCompletionOnly :
    (∃ S, Offers (afterIdle .eightBit [smpCycle false 1 .low .low (.ofByte 1) .indet]) S false [] ∧
      IsCompletion (afterIdle .eightBit []) S ∧ S.rw = .indet) ∧
    ∃ S, ¬IsCompletion (afterIdle .fourBitFirstNibble []) S :=
  ⟨⟨_, offers_smp rfl rfl (by simp [afterIdle]) (by decide), by simp [IsCompletion, CompletesAt, afterIdle, State.reset],
    by simp⟩, portSample (smpAt 1 .low 0x01), by simp [IsCompletion, CompletesAt, afterIdle]⟩

theorem witness_StepAnswersNextExactlyOnLegalCycles :
    (waiting [smpAt 4 .high 0x00]).inputs = smpAt 4 .high 0x00 :: [] := rfl

/-- Both directions of the equivalence. A rise with RS and RW indeterminate, a gap, a reset, and a first nibble
with RS and RW indeterminate (rows 4 and 6 of section 2.5) meet the duties; row 2's completion does not. -/
theorem witness_LegalStreamsRunToTheirEnd :
    SourceMeetsDuty 64 (waiting []).followed [smpCycle false 4 .indet .high ⟨0, 0⟩ .indet, gap,
      resetCycle true, smpAt 0 .high 0x00, smpCycle true 1 .indet .low (.ofByte 1) .indet,
      smpCycle true 2 .indet .high (.ofByte 1) .indet, smpAt 3 .low 0x00] ∧
    (∃ t, RunsOut (waiting [smpCycle false 4 .indet .high ⟨0, 0⟩ .indet]) t ∧ t.inputs = []) ∧
    ¬SourceMeetsDuty 64 (afterIdle .eightBit []).followed
      [smpCycle false 1 .indet .low (.ofByte 1) .low] := by
  refine ⟨?_, ⟨_, rfl, rfl⟩, ?_⟩
  · simp [SourceMeetsDuty, gap, resetCycle, smpAt, CompletesAt, State.followed, Followed.start, Followed.next,
      modeAndPhaseAfterFall, configuredMode, edge, waiting, afterIdle, LineState.level]
  · simp [SourceMeetsDuty, CompletesAt, State.followed, afterIdle, State.reset, LineState.level]

/-- The clause of `cfg_4bit`, and the clause of a width change: FunctionSet 0x20 in 8-bit mode. -/
theorem witness_BusWidthChangesOnlyByResetAndFunctionSet :
    (smpAt 1 .low 0x20).rst = false ∧ NoResetIn 1 (afterIdle .eightBit [smpAt 1 .low 0x20]) ∧
    ∃ t, step (afterIdle .eightBit [smpAt 1 .low 0x20]) = .next t ∧
      t.mode.isFourBit ≠ (afterIdle .eightBit []).mode.isFourBit :=
  ⟨rfl, by unfold NoResetIn; decide, _, rfl, by decide⟩

/-- An unused address, direction and width, and a step that leaves the port idle. -/
theorem witness_UnusedOutputFieldsAreZero :
    (∃ t, exec (decodeCW (packCW true false 0xFF)) State.reset = .next t ∧
      t.tRec.cat ≠ .setCGRAMAddress ∧ t.tRec.cat ≠ .setDDRAMAddress ∧ t.tRec.cat ≠ .entryModeSet ∧
      t.tRec.cat ≠ .functionSet) ∧
    ∃ t, step (waiting [gap]) = .next t ∧ t.out.aValid = false :=
  ⟨⟨_, rfl, by decide⟩, _, rfl, rfl⟩

theorem witness_EveryStepKeepsOutputsClassified :
    OutputsClassified (waiting [smpAt 4 .high 0x00]) ∧
    (∃ t, step (waiting [smpAt 4 .high 0x00]) = .next t) ∧
    Classified (record .memoryWrite 0xFF) :=
  ⟨waiting_classified _, ⟨_, rfl⟩, 0xFF, true, false, rfl⟩

/-- Both clauses; in the second, two steps in Ignored. -/
theorem witness_IgnoredIsUnreachableAndAbsorbs :
    (∃ t, RunsTo 3 (applyReset false (State.reset.withStream (idle ++ cmd 0x01))) t) ∧
    (afterIdle .ignored []).phase ≠ .waitRiseEmit ∧
    NoResetIn 2 (afterIdle .ignored [smpAt 1 .low 0x01, smpAt 2 .high 0x01]) ∧
    ∃ t, RunsTo 2 (afterIdle .ignored [smpAt 1 .low 0x01, smpAt 2 .high 0x01]) t :=
  ⟨⟨_, rfl⟩, by decide, by unfold NoResetIn; decide, _, rfl⟩

/-- Both outcomes: still waiting after a repeated level; and, from a state that meets the invariant, emitted by
the rise with a later record after it. -/
theorem witness_WaitingTransactionIsEmittedExactlyOnce :
    (waiting []).phase = .waitRiseEmit ∧ (∀ inputs, Inv (waiting inputs)) ∧
    NoResetIn 3 (waiting [smpAt 4 .high 0x00, smpAt 5 .low 0x01, smpAt 6 .high 0x01]) ∧
    (∃ t, RunsTo 1 (waiting [smpAt 4 .low 0x00]) t ∧ t.phase = .waitRiseEmit) ∧
    ∃ t, RunsTo 3 (waiting [smpAt 4 .high 0x00, smpAt 5 .low 0x01, smpAt 6 .high 0x01]) t ∧
      t.emitted.length = 3 :=
  ⟨rfl, waiting_inv, by unfold NoResetIn; decide, ⟨_, rfl, rfl⟩, _, rfl, rfl⟩

theorem witness_EightBitStreamEmitsItsClassification : 2 < 2 ^ State.reset.params.wIdx := by decide

/-- Both values of `P_START4`, and the narrowest index width the stream fits. -/
theorem witness_FourBitStreamEmitsTheNibbleSum :
    (4 < 2 ^ State.reset.params.wIdx ∧ State.reset.params.pStart4 = .firstNibble) ∧
    (4 < 2 ^ ({ pStart4 := .secondNibble, wIdx := 3, outLat := 0 } : Config).wIdx) := by decide

theorem witness_RunEndsWithItsStream : step State.reset = .fault .endOfStream := rfl

end Sys2Proof.Tests
end

section
/-! PROOFS of the state's own statements (spec/10_state.md): the invariant of R37, the reset states, the idle
port and unused fields of R34, and the codes. -/

namespace Sys2Proof.Machine

/-! ### The record of a decoded classification word is the classifier's -/

/-- "v & 1 == 1" (R136). -/
theorem entryDirection_eq_decide (v : Byte) : entryDirection v = decide (v.toNat % 2 = 1) :=
  Nat.testBit_zero _

/-- Bit 4 as a number (R139). -/
theorem functionWidth8_eq_decide (v : Byte) :
    functionWidth8 v = decide (v.toNat / 16 % 2 = 1) :=
  Nat.testBit_eq_decide_div_mod_eq

/-- "& 0x3F" is the remainder by 64 (R140). -/
theorem cgramAddress_eq_ofNat (v : Byte) : cgramAddress v = BitVec.ofNat 7 (v.toNat % 64) := by
  have mask : v.toNat &&& 63 = v.toNat % 64 := Nat.and_two_pow_sub_one_eq_mod _ 6
  apply BitVec.eq_of_toNat_eq
  change (v.toNat &&& 63) % 2 ^ 7 = v.toNat % 64 % 2 ^ 7
  rw [mask]

/-- "& 0x7F" is the remainder by 128 (R141). -/
theorem ddramAddress_eq_ofNat (v : Byte) : ddramAddress v = BitVec.ofNat 7 (v.toNat % 128) := by
  have mask : v.toNat &&& 127 = v.toNat % 128 := Nat.and_two_pow_sub_one_eq_mod _ 7
  apply BitVec.eq_of_toNat_eq
  change (v.toNat &&& 127) % 2 ^ 7 = v.toNat % 128 % 2 ^ 7
  rw [mask]

/-- The threshold cascade of the decoder and that of the classifier leave the same record (R133). -/
theorem recordOf_commandWrite (v : Byte) :
    recordOf (commandWrite v) = (classifyCommandWrite v).1 := by
  unfold commandWrite classifyCommandWrite
  split_ifs <;>
    simp [recordOf, plainRecord, entryDirection_eq_decide, functionWidth8_eq_decide,
      cgramAddress_eq_ofNat, ddramAddress_eq_ofNat, *]

/-- The instruction a classification word decodes to leaves the classifier's record (R130, R131). -/
theorem recordOf_decodeCW (v : Byte) (rs rw : Bool) :
    recordOf (decodeCW (packCW rs rw v)) = (classify v rs rw).1 := by
  rw [decodeCW_packCW]
  match rs, rw with
  | false, false => exact recordOf_commandWrite v
  | false, true => rfl
  | true, false => rfl
  | true, true => rfl

theorem classified_recordOf_decodeCW (v : Byte) (rs rw : Bool) :
    Classified (recordOf (decodeCW (packCW rs rw v))) :=
  ⟨v, rs, rw, recordOf_decodeCW v rs rw⟩

/-! ### The mode after a completion -/

theorem functionMode_cases (v : Byte) :
    functionMode v = .eightBit ∨ functionMode v = .fourBitFirstNibble := by
  unfold functionMode
  split
  · exact .inl rfl
  · exact .inr rfl

/-- A completion keeps the mode, or writes one of the two that FunctionSet can (R139). -/
theorem modeAfter_cases (i : Instr) (m : Mode) :
    modeAfter i m = m ∨ modeAfter i m = .eightBit ∨ modeAfter i m = .fourBitFirstNibble := by
  cases i with
  | functionSet v => exact .inr (functionMode_cases v)
  | _ => exact .inl rfl

/-- A completion enters no mode but the two that FunctionSet can write. -/
theorem modeAfter_ne {i : Instr} {m m' : Mode} (hm : m ≠ m') (h8 : m' ≠ .eightBit)
    (h4 : m' ≠ .fourBitFirstNibble) : modeAfter i m ≠ m' := by
  obtain h | h | h := modeAfter_cases i m <;> rw [h]
  · exact hm
  · exact h8.symm
  · exact h4.symm

/-! ### What a step can do, reset included -/

/-- A step is a reset, or one of the steps without reset. -/
theorem step_cases {s t : State} (h : step s = .next t) :
    (∃ (f : Bool) (rest : List BlockCycle), t = applyReset f { s with inputs := rest }) ∨
      StepCase s t := by
  obtain ⟨c, rest, hi, hb⟩ := step_next h
  obtain ⟨-, rfl⟩ | ⟨-, -, rfl⟩ | ⟨-, hv, hb⟩ := blockCycle_next hb
  · exact .inl ⟨c.cfg4bit, rest, rfl⟩
  · exact .inr (.idle rest)
  · obtain ⟨b, u, hclk, hn, hw, hu, rfl⟩ := sampleStep_next hb
    exact .inr (.sample c rest b u hi hv hclk hn hw hu)

/-- A sample that a rising-edge wait skips, with the clock low before it, has the clock low (R94). -/
theorem clock_low_of_not_consumes {p : Phase} {c : Bool} (hp : p ≠ .waitFall)
    (h : consumes p (edge (some false) c) = false) : c = false := by
  cases p <;> cases c <;> simp_all [edge, consumes]

/-! ### The invariant of R37 -/

/-- A start stamp already seen is below every index admitted later (R166). -/
theorem StartSeen.tStart_le {s : State} {idx : Nat} (h : StartSeen s)
    (hn : ∀ n, s.lastIdx = some n → n < idx) : s.tStart ≤ idx := by
  obtain ⟨n, hl, hle⟩ := h
  exact hle.trans (hn n hl).le

/-- What the phase action of a sample with index `idx` and clock level `c` leaves for the invariant: R37's
items, before `prev_clk` and the index premise are written. -/
structure ReadyToFinish (idx : Nat) (c : Bool) (u : State) : Prop where
  notIgnored : u.mode ≠ .ignored
  waitingClockLow : u.phase ≠ .waitFall → c = false
  secondNibblePhase : u.mode = .fourBitSecondNibble → u.phase = .waitRiseSilent ∨ u.phase = .waitFall
  pendingRecord : u.phase = .waitRiseEmit → Classified u.tRec ∧ u.tStart ≤ idx
  secondNibbleStart : u.mode = .fourBitSecondNibble → u.tStart ≤ idx
  latency : u.outPipe.length = u.params.outLat

theorem ReadyToFinish.inv_finishSample {idx : Nat} {c : Bool} {u : State}
    (h : ReadyToFinish idx c u) (e : Option Annotation) : Inv (finishSample idx c e u) where
  notIgnored := h.notIgnored
  waitingClockLow hp := congrArg some (h.waitingClockLow hp)
  secondNibblePhase := h.secondNibblePhase
  pendingRecord hp := ⟨(h.pendingRecord hp).1, idx, rfl, (h.pendingRecord hp).2⟩
  secondNibbleStart hm := ⟨idx, rfl, h.secondNibbleStart hm⟩
  clockSeen := by simp
  latency := by simpa using h.latency

/-- A completion run in EightBit or FourBitFirstNibble, the modes a completion is run in after the nibble
transition of R108. -/
theorem readyToFinish_completed {idx : Nat} {v : Byte} {rs rw : Bool} {s : State}
    (hi : s.mode ≠ .ignored) (h2 : s.mode ≠ .fourBitSecondNibble) (hs : s.tStart ≤ idx)
    (hl : s.outPipe.length = s.params.outLat) :
    ReadyToFinish idx false (completed (decodeCW (packCW rs rw v)) s) where
  notIgnored := modeAfter_ne hi (by decide) (by decide)
  waitingClockLow _ := rfl
  secondNibblePhase hm := absurd hm (modeAfter_ne h2 (by decide) (by decide))
  pendingRecord _ := ⟨classified_recordOf_decodeCW v rs rw, hs⟩
  secondNibbleStart _ := hs
  latency := hl

/-- The stamp of a second nibble is its own index, or that of the first nibble (R107). -/
theorem secondNibbleStart_tStart_le {S : Sample} {s : State} (h : s.tStart ≤ S.idx) :
    (secondNibbleStart S s).tStart ≤ S.idx := by
  rw [secondNibbleStart_tStart]
  split
  · exact le_rfl
  · exact h

/-- Every phase action at an index above the last admitted one keeps R37's items. -/
theorem PhaseCase.readyToFinish {S : Sample} {c : Bool} {s u : State} (h : PhaseCase S c s u)
    (hs : Inv s) (hn : ∀ n, s.lastIdx = some n → n < S.idx) : ReadyToFinish S.idx c u := by
  cases h with
  | eightBit rs rw hp he hc hm =>
    subst hc
    exact readyToFinish_completed (by simp [hm]) (by simp [hm]) le_rfl hs.latency
  | firstNibble hp he hc hm =>
    exact
      { notIgnored := by simp
        waitingClockLow := fun _ => hc
        secondNibblePhase := fun _ => .inl rfl
        pendingRecord := by simp
        secondNibbleStart := fun _ => le_rfl
        latency := hs.latency }
  | secondNibble rs rw hp he hc hm =>
    subst hc
    exact readyToFinish_completed (by simp) (by simp)
      (secondNibbleStart_tStart_le ((hs.secondNibbleStart hm).tStart_le hn)) hs.latency
  | ignored hp he hc hm => exact absurd hm hs.notIgnored
  | rise hp he hc =>
    exact
      { notIgnored := hs.notIgnored
        waitingClockLow := by simp
        secondNibblePhase := fun _ => .inr rfl
        pendingRecord := by simp
        secondNibbleStart := fun hm => (hs.secondNibbleStart hm).tStart_le hn
        latency := hs.latency }
  | skip hskip =>
    exact
      { notIgnored := hs.notIgnored
        waitingClockLow := fun hp => by
          rw [hs.waitingClockLow hp] at hskip
          exact clock_low_of_not_consumes hp hskip
        secondNibblePhase := hs.secondNibblePhase
        pendingRecord := fun hp => (hs.pendingRecord hp).imp_right (·.tStart_le hn)
        secondNibbleStart := fun hm => (hs.secondNibbleStart hm).tStart_le hn
        latency := hs.latency }

/-- The invariant does not speak of the block cycles to come. -/
theorem Inv.withInputs {s : State} (h : Inv s) (rest : List BlockCycle) :
    Inv { s with inputs := rest } :=
  { h with }

/-- The output side alone: the pipe keeps its length (R98, R192). -/
theorem Inv.outputCycle {s : State} (h : Inv s) (e : Option Annotation) :
    Inv (outputCycle e s) where
  notIgnored := h.notIgnored
  waitingClockLow := h.waitingClockLow
  secondNibblePhase := h.secondNibblePhase
  pendingRecord := h.pendingRecord
  secondNibbleStart := h.secondNibbleStart
  clockSeen := h.clockSeen
  latency := by simpa using h.latency

/-- Every step without reset keeps the invariant. -/
theorem StepCase.keeps_inv {s t : State} (h : StepCase s t) (hs : Inv s) : Inv t := by
  cases h with
  | idle rest => exact (hs.withInputs rest).outputCycle none
  | sample c rest b u hi hv hclk hn hw hu =>
    exact (hu.readyToFinish (hs.withInputs rest) hn).inv_finishSample _

theorem configuredMode_cases (f : Bool) :
    configuredMode f = .eightBit ∨ configuredMode f = .fourBitFirstNibble := by
  cases f
  · exact .inl rfl
  · exact .inr rfl

/-- A reset gives the invariant, from any state (R35, R181). -/
theorem inv_applyReset (f : Bool) (s : State) : Inv (applyReset f s) where
  notIgnored := by obtain h | h := configuredMode_cases f <;> simp [h]
  waitingClockLow h := absurd rfl h
  secondNibblePhase _ := .inr rfl
  pendingRecord h := nomatch h
  secondNibbleStart h := by
    obtain h' | h' := configuredMode_cases f <;> rw [applyReset_mode, h'] at h <;> cases h
  clockSeen := by simp
  latency := List.length_replicate

/-- Settles O34: a step is a reset, which gives the invariant, or a step without reset, which keeps it. -/
theorem everyStepKeepsTheInvariant : Obligations.EveryStepKeepsTheInvariant := by
  intro s t hs h
  obtain ⟨f, rest, rfl⟩ | h := step_cases h
  · exact inv_applyReset f _
  · exact h.keeps_inv hs

/-! ### Unused payload fields and the idle port (R34) -/

theorem commandWrite_value (v : Byte) : (commandWrite v).value = v := by
  unfold commandWrite
  split_ifs <;> rfl

/-- The decoder hands the value on unchanged. -/
theorem decodeCW_value (v : Byte) (rs rw : Bool) : (decodeCW (packCW rs rw v)).value = v := by
  rw [decodeCW_packCW]
  match rs, rw with
  | false, false => exact commandWrite_value v
  | false, true => rfl
  | true, false => rfl
  | true, true => rfl

theorem recordOf_value (i : Instr) : (recordOf i).value = i.value := by cases i <;> rfl

theorem recordOf_shift (i : Instr) : (recordOf i).shift = false := by cases i <;> rfl

/-- Only the two address categories carry an address. -/
theorem recordOf_addr {i : Instr} (hc : (recordOf i).cat ≠ .setCGRAMAddress)
    (hd : (recordOf i).cat ≠ .setDDRAMAddress) : (recordOf i).addr = 0 := by
  cases i with
  | setCGRAMAddress v => exact absurd rfl hc
  | setDDRAMAddress v => exact absurd rfl hd
  | _ => rfl

/-- Only EntryModeSet carries a direction. -/
theorem recordOf_inc {i : Instr} (h : (recordOf i).cat ≠ .entryModeSet) :
    (recordOf i).inc = false := by
  cases i with
  | entryModeSet v => exact absurd rfl h
  | _ => rfl

/-- Only FunctionSet carries a width. -/
theorem recordOf_width8 {i : Instr} (h : (recordOf i).cat ≠ .functionSet) :
    (recordOf i).width8 = false := by
  cases i with
  | functionSet v => exact absurd rfl h
  | _ => rfl

/-- After a step the port shows what `drivePort` gives for some record or for none. -/
theorem step_out {s t : State} (h : step s = .next t) : ∃ e, t.out = drivePort e := by
  obtain ⟨f, rest, rfl⟩ | h := step_cases h
  · exact ⟨none, rfl⟩
  · cases h <;> exact ⟨_, rfl⟩

theorem drivePort_of_not_aValid {e : Option Annotation} (h : (drivePort e).aValid = false) :
    drivePort e = AnnPort.idle := by
  cases e with
  | none => rfl
  | some a => cases h

/-- Settles O49: the record is `recordOf` of the decoded instruction, whose fields are said above, and the
port is driven by `drivePort` in every step. -/
theorem unusedOutputFieldsAreZero : Obligations.UnusedOutputFieldsAreZero := by
  refine ⟨fun v rs rw s t i j h => ?_, fun s t h hv => ?_⟩
  · rw [exec_eq_completed] at h
    cases h
    exact ⟨(recordOf_value _).trans (decodeCW_value v rs rw), rfl, recordOf_addr, recordOf_inc,
      recordOf_shift _, recordOf_width8⟩
  · obtain ⟨e, he⟩ := step_out h
    rw [he] at hv ⊢
    exact drivePort_of_not_aValid hv

/-! ### The reset states -/

/-- Nothing emitted yet and no transaction in progress (R35, R50). -/
theorem outputOrdered_applyReset (f : Bool) (s : State) : OutputOrdered (applyReset f s) where
  spans := by simp
  successive := List.Pairwise.nil
  seen := by simp
  beforePending := by simp

/-- A reset leaves no record on any way to the port (R181). -/
theorem outputsClassified_applyReset (f : Bool) (s : State) :
    OutputsClassified (applyReset f s) where
  emitted := by simp
  onTheWay := by simp
  pending h := nomatch h
  port := .inl rfl

/-- Settles O33: `State.reset` is itself a state after a reset. -/
theorem resetMeetsTheInvariants : Obligations.ResetMeetsTheInvariants := by
  have all (f : Bool) (s : State) : Inv (applyReset f s) ∧ OutputOrdered (applyReset f s) ∧
      OutputsClassified (applyReset f s) :=
    ⟨inv_applyReset f s, outputOrdered_applyReset f s, outputsClassified_applyReset f s⟩
  exact ⟨applyReset_reset ▸ all false State.reset, all⟩

/-- Settles O57: each code function evaluates to the spec's table. -/
theorem stateAndCategoryCodes : Obligations.StateAndCategoryCodes :=
  ⟨rfl, rfl, rfl⟩

end Sys2Proof.Machine
end

section
/-! PROOFS of the output order (spec/20_memory.md R50): every step keeps it, so every run from reset has it. -/

namespace Sys2Proof.Machine

/-! ### The start stamp of the transaction in progress -/

/-- A start stamp is owned by a transaction in progress: one that waits for its emitting rise, or one whose
first nibble is in (R25, R107). -/
def StartHeld (s : State) : Prop := s.phase = .waitRiseEmit ∨ s.mode = .fourBitSecondNibble

/-- A start stamp already seen is strictly below every index admitted later (R166). -/
theorem StartSeen.tStart_lt {s : State} {idx : Nat} (h : StartSeen s)
    (hn : ∀ n, s.lastIdx = some n → n < idx) : s.tStart < idx := by
  obtain ⟨n, hl, hle⟩ := h
  exact hle.trans_lt (hn n hl)

/-- A start stamp held after a sample is the sample's own index, or was held before it (R101 to R103). -/
theorem PhaseCase.startHeld {S : Sample} {c : Bool} {s u : State} (h : PhaseCase S c s u)
    (hu : StartHeld u) : u.tStart = S.idx ∨ StartHeld s ∧ u.tStart = s.tStart := by
  cases h with
  | eightBit => exact .inl rfl
  | firstNibble => exact .inl rfl
  | secondNibble rs rw hp he hc hm =>
    rw [completed_tStart, secondNibbleStart_tStart]
    split
    · exact .inl rfl
    · exact .inr ⟨.inr hm, rfl⟩
  | ignored hp he hc hm => simp [StartHeld, hm] at hu
  | rise => exact .inr ⟨.inr (hu.resolve_left (by simp)), rfl⟩
  | skip => exact .inr ⟨hu, rfl⟩

/-- No phase action emits: the emission is the end of the sample's step. -/
theorem PhaseCase.emitted_eq {S : Sample} {c : Bool} {s u : State} (h : PhaseCase S c s u) :
    u.emitted = s.emitted := by
  cases h <;> rfl

/-- A rising edge in WaitRiseEmit is consumed (R110). -/
theorem PhaseCase.eq_resumeWaitFall {S : Sample} {s u : State} (h : PhaseCase S true s u)
    (hp : s.phase = .waitRiseEmit) (he : s.prevClk = some false) : u = resumeWaitFall s := by
  cases h with
  | rise => rfl
  | skip hskip => simp [hp, he, edge, consumes] at hskip
  | _ => contradiction

/-! ### The output order -/

/-- The records emitted so far end before every index admitted later (R166). -/
theorem OutputOrdered.endIdx_lt {s : State} {idx : Nat} (h : OutputOrdered s)
    (hn : ∀ n, s.lastIdx = some n → n < idx) : ∀ a ∈ s.emitted, a.endIdx < idx := by
  intro a ha
  obtain ⟨n, hl, hle⟩ := h.seen a ha
  exact hle.trans_lt (hn n hl)

/-- The order does not speak of the block cycles to come. -/
theorem OutputOrdered.withInputs {s : State} (h : OutputOrdered s) (rest : List BlockCycle) :
    OutputOrdered { s with inputs := rest } :=
  { h with }

/-- A cycle that emits nothing keeps the order (R98). -/
theorem OutputOrdered.outputCycle_none {s : State} (h : OutputOrdered s) :
    OutputOrdered (outputCycle none s) where
  spans := by simpa using h.spans
  successive := by simpa using h.successive
  seen := by simpa using h.seen
  beforePending := by simpa using h.beforePending

/-- A sample that emits nothing keeps the order: a start stamp it writes is its own index, which is past
every record emitted. -/
theorem OutputOrdered.finishSample_none {S : Sample} {c : Bool} {s u : State}
    (h : OutputOrdered s) (hu : PhaseCase S c s u) (hn : ∀ n, s.lastIdx = some n → n < S.idx) :
    OutputOrdered (finishSample S.idx c none u) := by
  have hem : (finishSample S.idx c none u).emitted = s.emitted := by simp [hu.emitted_eq]
  have hend := h.endIdx_lt hn
  constructor <;> rw [hem]
  case spans => exact h.spans
  case successive => exact h.successive
  case seen => exact fun a ha => ⟨S.idx, rfl, (hend a ha).le⟩
  case beforePending =>
    intro hheld a ha
    obtain hidx | ⟨hs, hkept⟩ := hu.startHeld hheld
    · exact (hend a ha).trans_eq hidx.symm
    · exact (h.beforePending hs a ha).trans_eq hkept.symm

/-- An emitting rise keeps the order: the records before it end before its start stamp, and its start stamp is
below its own index. No transaction is left in progress (R110). -/
theorem OutputOrdered.finishSample_emit {idx : Nat} {c : Bool} {s : State} (h : OutputOrdered s)
    (hs : Inv s) (hp : s.phase = .waitRiseEmit) (hn : ∀ n, s.lastIdx = some n → n < idx) :
    OutputOrdered (finishSample idx c
      (some { startIdx := s.tStart, endIdx := idx, record := s.tRec }) (resumeWaitFall s)) where
  spans := List.forall_mem_append.2
    ⟨h.spans, List.forall_mem_singleton.2 ((hs.pendingRecord hp).2.tStart_lt hn)⟩
  successive := List.pairwise_append.2
    ⟨h.successive, List.pairwise_singleton _ _,
      fun a ha => List.forall_mem_singleton.2 (h.beforePending (.inl hp) a ha)⟩
  seen := List.forall_mem_append.2
    ⟨fun a ha => ⟨idx, rfl, (h.endIdx_lt hn a ha).le⟩,
      List.forall_mem_singleton.2 ⟨idx, rfl, le_rfl⟩⟩
  beforePending hheld := by
    have hm : s.mode = .fourBitSecondNibble := hheld.resolve_left (by simp)
    simpa [hp] using hs.secondNibblePhase hm

/-- Every step without reset keeps the order. -/
theorem StepCase.keeps_outputOrdered {s t : State} (h : StepCase s t) (hs : Inv s)
    (ho : OutputOrdered s) : OutputOrdered t := by
  cases h with
  | idle rest => exact (ho.withInputs rest).outputCycle_none
  | sample c rest b u hi hv hclk hn hw hu =>
    rw [emission_eq]
    split
    · rename_i hemit
      obtain ⟨hp, he, rfl⟩ := hemit
      obtain rfl := hu.eq_resumeWaitFall hp he
      exact (ho.withInputs rest).finishSample_emit (hs.withInputs rest) hp hn
    · exact (ho.withInputs rest).finishSample_none hu hn

/-- Settles O35: a step is a reset, which clears the records emitted, or a step without reset. -/
theorem everyStepKeepsTheOutputOrder : Obligations.EveryStepKeepsTheOutputOrder := by
  intro s t hs ho h
  obtain ⟨f, rest, rfl⟩ | h := step_cases h
  · exact outputOrdered_applyReset f _
  · exact h.keeps_outputOrdered hs ho

/-! ### Runs from reset -/

/-- Every state a run from reset reaches meets the state invariant and the output order (R37, R50). -/
theorem inv_and_outputOrdered_of_runsTo_applyReset {cfg4bit : Bool} {s t : State} {k : Nat}
    (h : RunsTo k (applyReset cfg4bit s) t) : Inv t ∧ OutputOrdered t := by
  refine runsTo_keeps (fun s => Inv s ∧ OutputOrdered s) ?_
    ⟨inv_applyReset cfg4bit s, outputOrdered_applyReset cfg4bit s⟩ h
  rintro s t ⟨hs, ho⟩ hst
  exact ⟨everyStepKeepsTheInvariant s t hs hst, everyStepKeepsTheOutputOrder s t hs ho hst⟩

/-- Spans that are proper and successive are disjoint, with both ends in strict order. -/
theorem OutputOrdered.pairwise_strict {s : State} (h : OutputOrdered s) :
    s.emitted.Pairwise (fun a b =>
      a.endIdx < b.startIdx ∧ a.startIdx < b.startIdx ∧ a.endIdx < b.endIdx) := by
  refine h.successive.imp_of_mem ?_
  intro a b ha hb hab
  exact ⟨hab, (h.spans a ha).trans hab, hab.trans (h.spans b hb)⟩

/-- Settles O36: the order holds after a reset and every step keeps it. -/
theorem everyRunEmitsInStrictOrder : Obligations.EveryRunEmitsInStrictOrder := by
  intro cfg4bit s t k h
  obtain ⟨-, ho⟩ := inv_and_outputOrdered_of_runsTo_applyReset h
  exact ⟨ho.spans, ho.pairwise_strict⟩

end Sys2Proof.Machine
end

section
/-! PROOFS of the encoding's statements (spec/30_encoding.md): the decoder and the encoder are inverse, the
line states on the ports, the word that the step fetches, and the category codes that leave the block. -/

namespace Sys2Proof.Machine

/-! ### The decoder after the encoder (R66, R68) -/

theorem valueIn_iff {lo hi : Nat} {v : Byte} :
    valueIn lo hi v = true ↔ lo ≤ v.toNat ∧ v.toNat < hi := by
  simp [valueIn]

/-- The path selection reads a well-formed instruction back from its value and its row's control bits: on the
command write path the cascade stops at the range that holds the value (R131, R133). -/
theorem selectPath_of_wellFormed {i : Instr} (h : WellFormed i = true) (hw : i.isWarning = false) :
    selectPath i.value i.controlBits.1 i.controlBits.2 = i := by
  cases i with
  | readBusyFlagAndAddressCounter v => rfl
  | memoryWrite v => rfl
  | memoryRead v => rfl
  | warning v => cases hw
  | _ v =>
    obtain ⟨hlo, hhi⟩ := valueIn_iff.1 h
    change commandWrite v = _
    simp (disch := omega) only [commandWrite, if_pos, if_neg]

/-- Bit 10 clear: the table word is the classification word of the row's control bits and the value. -/
theorem encode_toNat {i : Instr} (hw : i.isWarning = false) :
    (encode i).toNat = (packCW i.controlBits.1 i.controlBits.2 i.value).toNat := by
  rw [encode, hw]
  exact (BitVec.toNat_append _ _).trans (by simp)

/-- Bit 10 set: the Warning row's word (R68). -/
theorem encode_warning_toNat (v : Byte) : (encode (.warning v)).toNat = 1024 + v.toNat := by
  revert v
  decide

/-- A number below 1024 is decoded as the classification word it is. -/
theorem decode_toNat (cw : CW) : decode cw.toNat = .ok (decodeCW cw) := by
  rw [decode, if_pos cw.isLt, BitVec.ofNat_toNat, BitVec.setWidth_eq]

theorem decode_warning (v : Byte) : decode (1024 + v.toNat) = .ok (.warning v) := by
  have hv : v.toNat < 256 := v.isLt
  have hval : BitVec.ofNat 8 (1024 + v.toNat) = v := by
    apply BitVec.eq_of_toNat_eq
    rw [BitVec.toNat_ofNat]
    omega
  rw [decode, if_neg (by omega), if_pos (by omega), hval]

theorem decode_encode {i : Instr} (h : WellFormed i = true) : decode (encode i).toNat = .ok i := by
  cases hw : i.isWarning with
  | false => rw [encode_toNat hw, decode_toNat, decodeCW_packCW, selectPath_of_wellFormed h hw]
  | true =>
    cases i with
    | warning v => rw [encode_warning_toNat, decode_warning]
    | _ => cases hw

/-- Settles O2: the host's question is answered by `decode`, and `decode` undoes `encode`. -/
theorem decodeOfEncodeIsTheInstruction : Obligations.DecodeOfEncodeIsTheInstruction := by
  intro i h
  refine ⟨decode_encode h, fun nbits => ?_⟩
  rw [decodeTableWord, decode_encode h]

/-! ### The encoder after the decoder (R66, R70) -/

/-- A command write stands in its category's range, on a row of the control bits 0 and 0. -/
theorem commandWrite_row (v : Byte) :
    WellFormed (commandWrite v) = true ∧ (commandWrite v).controlBits = (false, false) ∧
      (commandWrite v).isWarning = false := by
  unfold commandWrite
  split_ifs <;> exact ⟨valueIn_iff.2 (by omega), rfl, rfl⟩

/-- The decoded instruction is well formed, on a row of the word's control bits that is not Warning's. -/
theorem decodeCW_row (v : Byte) (rs rw : Bool) :
    WellFormed (decodeCW (packCW rs rw v)) = true ∧
      (decodeCW (packCW rs rw v)).controlBits = (rs, rw) ∧
      (decodeCW (packCW rs rw v)).isWarning = false := by
  rw [decodeCW_packCW]
  match rs, rw with
  | false, false => exact commandWrite_row v
  | false, true => exact ⟨rfl, rfl, rfl⟩
  | true, false => exact ⟨rfl, rfl, rfl⟩
  | true, true => exact ⟨rfl, rfl, rfl⟩

/-- Settles O3: a word is the packing of its parts, and the decoded instruction keeps all three of them. -/
theorem encodeOfDecodeIsTheWord : Obligations.EncodeOfDecodeIsTheWord := by
  intro cw
  rw [← packCW_of_parts cw]
  obtain ⟨hwf, hbits, hwarn⟩ := decodeCW_row (cwValue cw) (cwRs cw) (cwRw cw)
  refine ⟨hwf, ?_⟩
  rw [encode_toNat hwarn, hbits, decodeCW_value]

/-- Settles O1: each word evaluates to its row's instruction. -/
theorem decodeReadsSpecEncodings : Obligations.DecodeReadsSpecEncodings := by
  unfold Obligations.DecodeReadsSpecEncodings
  decide

/-! ### The lines on the ports (R61, R62) -/

/-- A line's state depends on its level bit only where the line is known (R61). -/
theorem lineState_congr {known level level' : Bool} (h : (level && known) = (level' && known)) :
    lineState known level = lineState known level' := by
  cases known with
  | false => rfl
  | true => rw [Bool.and_true, Bool.and_true] at h; rw [h]

/-- Two cycles with the same known bits, and the same levels on the known lines, have the same line at
every bit. -/
theorem lineState_getLsbD_congr {c d : BlockCycle} (hk : c.sKnown = d.sKnown)
    (hl : c.sLvl &&& c.sKnown = d.sLvl &&& d.sKnown) (k : Nat) :
    lineState (c.sKnown.getLsbD k) (c.sLvl.getLsbD k) =
      lineState (d.sKnown.getLsbD k) (d.sLvl.getLsbD k) := by
  have hbit := congrArg (BitVec.getLsbD · k) hl
  simp only [BitVec.getLsbD_and, hk] at hbit
  rw [hk]
  exact lineState_congr hbit

/-- Settles O5: the codes and the bit positions are the definitions', and a sample is made of its index and
its lines. -/
theorem lineStateCodesOnThePorts : Obligations.LineStateCodesOnThePorts := by
  refine ⟨⟨rfl, rfl, rfl, rfl⟩, fun _ => rfl, fun c hl hk => ?_, fun c d hi hk hl => ?_⟩
  · rw [portSample, hl, hk]
    rfl
  · simp only [portSample, hi, lineState_getLsbD_congr hk hl]

/-! ### The word the step fetches (R62, R101) -/

/-- A byte is the packing of its bits. -/
theorem packByte_getLsbD (v : Byte) :
    packByte (v.getLsbD 7) (v.getLsbD 6) (v.getLsbD 5) (v.getLsbD 4) (v.getLsbD 3) (v.getLsbD 2)
      (v.getLsbD 1) (v.getLsbD 0) = v := by
  revert v
  decide

/-- The sampler on the ports: "s_lvl[9:2] & s_known[9:2]" (R81). -/
theorem sampleToByte_portSample (c : BlockCycle) :
    sampleToByte (portSample c) = c.sLvl.extractLsb' 2 8 &&& c.sKnown.extractLsb' 2 8 := by
  rw [← packByte_getLsbD (c.sLvl.extractLsb' 2 8 &&& c.sKnown.extractLsb' 2 8)]
  simp [sampleToByte, portSample, dataBit_lineState]

/-- The byte of a `smp` is its level bits where they are known (R72). -/
@[simp] theorem smpCycle_sampleToByte (f : Bool) (n : Nat) (rs clk : LineState) (d : DataLines)
    (rw : LineState) :
    sampleToByte (portSample (smpCycle f n rs clk d rw)) = d.level &&& d.known := by
  rw [sampleToByte_portSample, smpCycle, portBits_data, portBits_data]

@[simp] theorem bitLine_lvlBit (b : Bool) : (bitLine b).lvlBit = b := by cases b <;> rfl

@[simp] theorem bitLine_knownBit (b : Bool) : (bitLine b).knownBit = true := by cases b <;> rfl

/-- The cycle that `withFetchWord` places is a `smp` with all lines known and the clock low. -/
theorem fetchCycle_eq_smpCycle (cw : CW) :
    fetchCycle cw =
      smpCycle false 0 (bitLine (cwRs cw)) .low (.ofByte (cwValue cw)) (bitLine (cwRw cw)) := by
  have hknown : (0x7FF : LineBits) =
      BitVec.ofBool true ++ (0xFF : Byte) ++ BitVec.ofBool true ++ BitVec.ofBool true := by decide
  simp only [fetchCycle, smpCycle, bitLine_lvlBit, bitLine_knownBit, DataLines.ofByte, hknown]
  rfl

/-- A completion in EightBit runs the instruction of the classification word on the bus (R101). -/
theorem step_eightBit_fall {s : State} {S : Sample} {rs rw : Bool} {rest : List BlockCycle}
    (h : Offers s S false rest) (hm : s.mode = .eightBit) (hp : s.phase = .waitFall)
    (he : s.prevClk = some true) (hrs : S.rs.level = some rs) (hrw : S.rw.level = some rw) :
    step s = thenNext
      (exec (decodeCW (packCW rs rw (sampleToByte S))) { s with inputs := rest, tStart := S.idx })
      (finishSample S.idx false none) := by
  rw [step_offers h, emission_eq, if_neg (by simp)]
  simp [phaseAction, fallingAction, completeSample, eightBitStart, edge, hm, hp, he, hrs, hrw]

theorem withFetchWord_toNat (s : State) (nbits : Nat) (cw : CW) :
    s.withFetchWord nbits cw.toNat = atCompletionOf cw s := by
  rw [State.withFetchWord, if_pos cw.isLt, BitVec.ofNat_toNat, BitVec.setWidth_eq]

/-- The placed word offers its completion sample. -/
theorem offers_atCompletionOf (cw : CW) (s : State) :
    Offers (atCompletionOf cw s) (portSample (fetchCycle cw)) false s.inputs := by
  rw [fetchCycle_eq_smpCycle]
  refine offers_smp ?_ rfl (fun _ h => nomatch h) (Nat.two_pow_pos _)
  rw [← fetchCycle_eq_smpCycle]
  rfl

/-- The placed word is the classification word that the completion sample forms. -/
theorem packCW_fetchCycle (cw : CW) :
    packCW (cwRs cw) (cwRw cw) (sampleToByte (portSample (fetchCycle cw))) = cw := by
  have hall : cwValue cw &&& 0xFF = cwValue cw := BitVec.and_allOnes
  rw [fetchCycle_eq_smpCycle, smpCycle_sampleToByte]
  simpa only [DataLines.ofByte, hall] using packCW_of_parts cw

/-- The step from a placed word is a completion in EightBit of that word. -/
theorem step_atCompletionOf (cw : CW) (s : State) :
    step (atCompletionOf cw s) =
      thenNext (exec (decodeCW cw)
          { s with
            mode := .eightBit
            phase := .waitFall
            prevClk := some true
            lastIdx := none
            tStart := 0 })
        (finishSample 0 false none) := by
  have hrs : (portSample (fetchCycle cw)).rs.level = some (cwRs cw) := by
    rw [fetchCycle_eq_smpCycle, smpCycle_rs, bitLine_level]
  have hrw : (portSample (fetchCycle cw)).rw.level = some (cwRw cw) := by
    rw [fetchCycle_eq_smpCycle, smpCycle_rw, bitLine_level]
  rw [step_eightBit_fall (offers_atCompletionOf cw s) rfl rfl rfl hrs hrw, packCW_fetchCycle]
  rfl

/-- Settles O55: the placed word is completed in EightBit, and every meaning answers a next state. -/
theorem fetchedWordIsRun : Obligations.FetchedWordIsRun := by
  intro s nbits cw
  rw [withFetchWord_toNat, step_atCompletionOf]
  refine ⟨rfl, ?_⟩
  rw [exec_eq_completed]
  exact ⟨_, rfl⟩

/-! ### The records that leave the block (R70, R145, R148) -/

/-- The port shows a record of the classifier or none, where the output latency holds no other. -/
theorem drivePort_headD_classified {l : List (Option Annotation)}
    (h : ∀ a, some a ∈ l → Classified a.record) :
    drivePort (l.headD none) = AnnPort.idle ∨
      ∃ a, Classified a.record ∧ drivePort (l.headD none) = drivePort (some a) := by
  match l with
  | [] => exact .inl rfl
  | none :: _ => exact .inl rfl
  | some a :: _ => exact .inr ⟨a, h a List.mem_cons_self, rfl⟩

/-- The property does not speak of the block cycles to come, of `prev_clk` or of the index premise. -/
theorem OutputsClassified.withSampleFields {s : State} (h : OutputsClassified s)
    (rest : List BlockCycle) (p : Option Bool) (n : Option Nat) :
    OutputsClassified { s with inputs := rest, prevClk := p, lastIdx := n } :=
  { h with }

/-- The output side keeps the property where what it emits is the classifier's. -/
theorem OutputsClassified.outputCycle {s : State} (h : OutputsClassified s)
    {e : Option Annotation} (he : ∀ a, e = some a → Classified a.record) :
    OutputsClassified (outputCycle e s) := by
  have hpipe : ∀ a, some a ∈ s.outPipe ++ [e] → Classified a.record := by
    intro a ha
    obtain ha | ha := List.mem_append.1 ha
    · exact h.onTheWay a ha
    · exact he a (List.mem_singleton.1 ha).symm
  exact
    { emitted := List.forall_mem_append.2 ⟨h.emitted, fun a ha => he a (Option.mem_toList.1 ha)⟩
      onTheWay := fun a ha => hpipe a (List.mem_of_mem_tail ha)
      pending := h.pending
      port := drivePort_headD_classified hpipe }

/-- An emitted record is the one that waited for its rise (R110). -/
theorem OutputsClassified.of_emission {s : State} (h : OutputsClassified s) (idx : Nat) (c : Bool) :
    ∀ a, emission idx c s = some a → Classified a.record := by
  intro a ha
  rw [emission_eq] at ha
  split at ha
  · rename_i hemit
    obtain ⟨hp, -⟩ := hemit
    cases ha
    exact h.pending hp
  · cases ha

/-- A completion leaves the record of the classification word it decoded (R130). -/
theorem OutputsClassified.completed {s : State} (h : OutputsClassified s) (v : Byte)
    (rs rw : Bool) : OutputsClassified (completed (decodeCW (packCW rs rw v)) s) where
  emitted := h.emitted
  onTheWay := h.onTheWay
  pending _ := classified_recordOf_decodeCW v rs rw
  port := h.port

/-- A phase action writes `t_rec` only at a completion, and waits to emit only there or where it did. -/
theorem PhaseCase.keeps_outputsClassified {S : Sample} {c : Bool} {s u : State}
    (hu : PhaseCase S c s u) (h : OutputsClassified s) : OutputsClassified u := by
  cases hu with
  | eightBit rs rw =>
    exact OutputsClassified.completed (s := eightBitStart S s) { h with } _ rs rw
  | firstNibble => exact { h with pending := by simp }
  | secondNibble rs rw =>
    exact OutputsClassified.completed (s := secondNibbleStart S s) { h with } _ rs rw
  | ignored => exact { h with pending := by simp }
  | rise => exact { h with pending := by simp }
  | skip => exact h

/-- Every step without reset keeps the property. -/
theorem StepCase.keeps_outputsClassified {s t : State} (h : StepCase s t)
    (hs : OutputsClassified s) : OutputsClassified t := by
  have hin (rest : List BlockCycle) : OutputsClassified { s with inputs := rest } :=
    hs.withSampleFields rest s.prevClk s.lastIdx
  cases h with
  | idle rest => exact (hin rest).outputCycle (fun _ h => nomatch h)
  | sample c rest b u hi hv hclk hn hw hu =>
    exact ((hu.keeps_outputsClassified (hin rest)).withSampleFields u.inputs (some b)
      (some c.sIdx)).outputCycle (hs.of_emission c.sIdx b)

theorem classifyCommandWrite_code_le (v : Byte) :
    (classifyCommandWrite v).1.cat.code.toNat ≤ 10 := by
  unfold classifyCommandWrite
  split_ifs <;> simp [plainRecord, Category.code]

/-- The classifier gives the codes 0 to 10 only: Warning's 11 is on no path (R142, R148). -/
theorem classify_code_le (v : Byte) (rs rw : Bool) : (classify v rs rw).1.cat.code.toNat ≤ 10 := by
  match rs, rw with
  | false, false => exact classifyCommandWrite_code_le v
  | false, true => simp [classify, plainRecord, Category.code]
  | true, false => simp [classify, plainRecord, Category.code]
  | true, true => simp [classify, plainRecord, Category.code]

/-- Settles O50: a step is a reset, which leaves no record, or a step without reset, which keeps the
property; and each path of the classifier has its code. -/
theorem everyStepKeepsOutputsClassified : Obligations.EveryStepKeepsOutputsClassified := by
  refine ⟨fun s t hs h => ?_, ?_⟩
  · obtain ⟨f, rest, rfl⟩ | h := step_cases h
    · exact outputsClassified_applyReset f _
    · exact h.keeps_outputsClassified hs
  · rintro r ⟨v, rs, rw, rfl⟩
    exact classify_code_le v rs rw

end Sys2Proof.Machine
end

section
/-! PROOFS of the bit sampler (spec/40_bit_sampler.md): what it reads of a line, and the bits of the byte it assembles. -/

namespace Sys2Proof.Machine

/-! ### The bit sampler (R81, R82) -/

/-- The sampler reads 1 of a high line alone: `L` and `X` read as 0 (R82). -/
theorem LineState.dataBit_eq_decide (l : LineState) : l.dataBit = decide (l = .high) := by
  cases l <;> rfl

/-- Settles O6: bit k of the packing is Dk's data bit, which is 1 of a high line alone; the port form is
`sampleToByte_portSample`. -/
theorem samplerReadsKnownHighDataLines : Obligations.SamplerReadsKnownHighDataLines := by
  refine ⟨fun S => ?_, sampleToByte_portSample⟩
  simp only [← LineState.dataBit_eq_decide]
  exact packByte_bits _ _ _ _ _ _ _ _

end Sys2Proof.Machine
end

section
/-! PROOFS of the clock-edge detector (spec/41_edge_detector.md): the edge test, the samples a phase does not
consume, the alternation of the edges, and the stream of clock transitions alone. -/

namespace Sys2Proof.Machine

/-! ### The edge test (R91) -/

theorem edge_noEdge_iff (p : Option Bool) (c : Bool) :
    edge p c = .noEdge ↔ p = none ∨ p = some c := by
  rcases p with _ | (_ | _) <;> cases c <;> simp [edge]

/-- Settles O8: one line of the table per edge. -/
theorem edgeTestTable : Obligations.EdgeTestTable :=
  fun p c => ⟨edge_fall_iff p c, edge_rise_iff p c, edge_noEdge_iff p c⟩

/-! ### A sample that its phase does not consume (R93, R94) -/

/-- WaitFall consumes falls, and the rising-edge waits consume rises (R94). -/
theorem consumes_iff (p : Phase) (e : Edge) :
    consumes p e = true ↔ (p = .waitFall ∧ e = .fall) ∨ (p ≠ .waitFall ∧ e = .rise) := by
  cases p <;> cases e <;> simp [consumes]

theorem consumes_noEdge (p : Phase) : consumes p .noEdge = false := by
  cases p <;> rfl

theorem phaseAction_of_not_consumes {S : Sample} {c : Bool} {s : State}
    (h : consumes s.phase (edge s.prevClk c) = false) : phaseAction S c s = .next s := by
  cases hp : s.phase <;> cases he : edge s.prevClk c <;> simp [phaseAction, consumes, hp, he] at h ⊢

/-- Only a consumed rise emits (R110). -/
theorem emission_of_not_consumes {c : Bool} {s : State} (idx : Nat)
    (h : consumes s.phase (edge s.prevClk c) = false) : emission idx c s = none := by
  rw [emission_eq, if_neg]
  rintro ⟨hp, he, rfl⟩
  simp [hp, he, edge, consumes] at h

/-- The step of an admitted sample that is not consumed is the end of its step alone (R92, R94). -/
theorem step_of_not_consumes {s : State} {S : Sample} {c : Bool} {rest : List BlockCycle}
    (h : Offers s S c rest) (hn : consumes s.phase (edge s.prevClk c) = false) :
    step s = .next (finishSample S.idx c none { s with inputs := rest }) := by
  rw [step_offers h, emission_of_not_consumes (s := { s with inputs := rest }) _ hn,
    phaseAction_of_not_consumes (s := { s with inputs := rest }) hn]
  rfl

/-- Settles O29: a sample that is not the edge its phase waits for is not consumed. -/
theorem unconsumedSampleOnlyMovesTheClock : Obligations.UnconsumedSampleOnlyMovesTheClock := by
  intro s S c rest h hskip
  refine step_of_not_consumes h (Bool.eq_false_iff.2 fun hcons => ?_)
  rw [consumes_iff, edge_fall_iff, edge_rise_iff] at hcons
  obtain ⟨hp, hne⟩ | ⟨hp, hne⟩ := hskip
  · exact hcons.elim (fun hfall => hne hfall.2) (fun hrise => hrise.1 hp)
  · exact hcons.elim (fun hfall => hp hfall.1) (fun hrise => hne hrise.2)

/-- Settles O30: the reset leaves WaitFall with no clock level before the sample, so it is no fall. -/
theorem firstSampleAfterResetIsNoEdge : Obligations.FirstSampleAfterResetIsNoEdge :=
  fun _cfg4bit _s S c rest h =>
    ⟨rfl, unconsumedSampleOnlyMovesTheClock _ S c rest h (.inl ⟨rfl, fun hfall => nomatch hfall.1⟩)⟩

/-! ### A cycle that offers no sample (R98) -/

theorem step_gap {s : State} {c : BlockCycle} {rest : List BlockCycle} (hi : s.inputs = c :: rest)
    (hr : c.rst = false) (hv : c.sValid = false) :
    step s = .next (outputCycle none { s with inputs := rest }) := by
  simp [step_cons hi, blockCycle, hr, hv]

/-- Settles O31: the step is a cycle of the output side. -/
theorem cycleWithoutSampleIsNoStep : Obligations.CycleWithoutSampleIsNoStep :=
  fun _s _c _rest hi hr hv =>
    ⟨_, step_gap hi hr hv, rfl, rfl, rfl, rfl, rfl, rfl, by simp, rfl, rfl, rfl⟩

/-! ### The edges alternate (R95) -/

/-- A next state after an admitted sample is the end of the sample's step after its phase action. -/
theorem step_offers_next {s t : State} {S : Sample} {c : Bool} {rest : List BlockCycle}
    (h : Offers s S c rest) (ht : step s = .next t) :
    ∃ u, phaseAction S c { s with inputs := rest } = .next u ∧
      t = finishSample S.idx c (emission S.idx c { s with inputs := rest }) u :=
  thenNext_next (step_offers h ▸ ht)

/-- A fall in WaitFall is consumed, and every falling-edge action leaves a rising-edge wait (R101 to R104). -/
theorem PhaseCase.phase_ne_waitFall {S : Sample} {s u : State} (h : PhaseCase S false s u)
    (hp : s.phase = .waitFall) (he : s.prevClk = some true) : u.phase ≠ .waitFall := by
  cases h with
  | eightBit | firstNibble | secondNibble | ignored => simp
  | rise hne => exact absurd hp hne
  | skip hskip => simp [hp, he, edge, consumes] at hskip

/-- After a rise the phase is WaitFall: it ends a rising-edge wait, and WaitFall skips it (R94, R109, R110). -/
theorem PhaseCase.phase_eq_waitFall {S : Sample} {s u : State} (h : PhaseCase S true s u)
    (he : s.prevClk = some false) : u.phase = .waitFall := by
  cases h with
  | rise => rfl
  | skip hskip =>
    by_contra hp
    have hcons : consumes s.phase (edge (some false) true) = true :=
      (consumes_iff _ _).2 (.inr ⟨hp, rfl⟩)
    rw [he, hcons] at hskip
    cases hskip
  | _ => contradiction

/-- Settles O42: by R37 a clock that was high finds no rising-edge wait, so the fall is consumed. -/
theorem edgesAlternateAndNoneIsSkipped : Obligations.EdgesAlternateAndNoneIsSkipped := by
  intro s t S c rest hs h ht
  obtain ⟨u, hu, rfl⟩ := step_offers_next h ht
  have hcase := phaseAction_next hu
  refine ⟨?_, ?_⟩
  · rintro he rfl
    have hp : s.phase = .waitFall := by
      by_contra hp
      simp [hs.waitingClockLow hp] at he
    exact ⟨hp, hcase.phase_ne_waitFall hp he⟩
  · rintro he rfl
    exact hcase.phase_eq_waitFall he

/-! ### The state beside the transaction: what no phase action reads or writes -/

/-- The output side, the index premise and the block cycles to come. -/
structure Side where
  out : AnnPort
  outPipe : List (Option Annotation)
  lastIdx : Option Nat
  inputs : List BlockCycle

def State.side (s : State) : Side :=
  { out := s.out, outPipe := s.outPipe, lastIdx := s.lastIdx, inputs := s.inputs }

/-- `s` with another side. -/
def State.withSide (d : Side) (s : State) : State :=
  { s with out := d.out, outPipe := d.outPipe, lastIdx := d.lastIdx, inputs := d.inputs }

theorem completeSample_withSide (d : Side) (S : Sample) (v : Byte) (s : State) :
    completeSample S v (s.withSide d) = thenNext (completeSample S v s) (State.withSide d) := by
  cases hrs : S.rs.level <;> cases hrw : S.rw.level <;>
    simp only [completeSample, hrs, hrw, exec_eq_completed] <;> rfl

theorem fallingAction_withSide (d : Side) (S : Sample) (s : State) :
    fallingAction S (s.withSide d) = thenNext (fallingAction S s) (State.withSide d) := by
  have hmode : (s.withSide d).mode = s.mode := rfl
  cases hm : s.mode <;> simp only [fallingAction, hmode, hm]
  case eightBit => exact completeSample_withSide d S _ (eightBitStart S s)
  case fourBitFirstNibble => rfl
  case fourBitSecondNibble => exact completeSample_withSide d S _ (secondNibbleStart S s)
  case ignored => rfl

/-- The phase action commutes with a change of side: it neither reads nor writes one. -/
theorem phaseAction_withSide (d : Side) (S : Sample) (c : Bool) (s : State) :
    phaseAction S c (s.withSide d) = thenNext (phaseAction S c s) (State.withSide d) := by
  have hphase : (s.withSide d).phase = s.phase := rfl
  have hclk : (s.withSide d).prevClk = s.prevClk := rfl
  cases hcons : consumes s.phase (edge s.prevClk c) with
  | false =>
    rw [phaseAction_of_not_consumes hcons, phaseAction_of_not_consumes (hphase ▸ hclk ▸ hcons)]
    rfl
  | true =>
    cases hp : s.phase <;> cases he : edge s.prevClk c <;> simp [hp, he, consumes] at hcons
    case waitFall.fall => simpa only [phaseAction, hphase, hclk, hp, he] using fallingAction_withSide d S s
    all_goals
      simp only [phaseAction, hphase, hclk, hp, he]
      rfl

/-! ### The stream of clock transitions alone (R96 to R98) -/

theorem transitionsOnly_nil (prev : Option Bool) : transitionsOnly prev [] = [] := rfl

theorem transitionsOnly_reset {c : BlockCycle} (prev : Option Bool) (rest : List BlockCycle)
    (hr : c.rst = true) : transitionsOnly prev (c :: rest) = c :: transitionsOnly none rest := by
  simp [transitionsOnly, hr]

theorem transitionsOnly_gap {c : BlockCycle} (prev : Option Bool) (rest : List BlockCycle)
    (hr : c.rst = false) (hv : c.sValid = false) :
    transitionsOnly prev (c :: rest) = transitionsOnly prev rest := by
  simp [transitionsOnly, hr, hv]

theorem transitionsOnly_sample {c : BlockCycle} {b : Bool} (prev : Option Bool)
    (rest : List BlockCycle) (hr : c.rst = false) (hv : c.sValid = true)
    (hb : (portSample c).clk.level = some b) :
    transitionsOnly prev (c :: rest) =
      if prev = some b then transitionsOnly prev rest else c :: transitionsOnly (some b) rest := by
  simp [transitionsOnly, hr, hv, hb]

theorem step_reset {s : State} {c : BlockCycle} {rest : List BlockCycle} (hi : s.inputs = c :: rest)
    (hr : c.rst = true) : step s = .next (applyReset c.cfg4bit { s with inputs := rest }) := by
  simp [step_cons hi, blockCycle, hr]

theorem Offers.clk_level {s : State} {S : Sample} {b : Bool} {rest : List BlockCycle}
    (h : Offers s S b rest) : S.clk.level = some b := by
  obtain ⟨_, _, _, _, _, hb, _⟩ := h
  exact hb

/-- An offered sample's index is above the last admitted one (R166). -/
theorem Offers.lastIdx_lt {s : State} {S : Sample} {b : Bool} {rest : List BlockCycle}
    (h : Offers s S b rest) : ∀ n, s.lastIdx = some n → n < S.idx := by
  obtain ⟨_, _, _, _, _, _, hn, _⟩ := h
  exact hn

/-- What a step can do, by the block cycle it takes. -/
theorem step_cases_of_cycle {s t : State} {c : BlockCycle} {rest : List BlockCycle}
    (hi : s.inputs = c :: rest) (h : step s = .next t) :
    (c.rst = true ∧ t = applyReset c.cfg4bit { s with inputs := rest }) ∨
    (c.rst = false ∧ c.sValid = false ∧ t = outputCycle none { s with inputs := rest }) ∨
    (c.rst = false ∧ c.sValid = true ∧ ∃ b, Offers s (portSample c) b rest) := by
  rw [step_cons hi] at h
  obtain hreset | hgap | ⟨hr, hv, hstep⟩ := blockCycle_next h
  · exact .inl hreset
  · exact .inr (.inl hgap)
  · obtain ⟨b, u, hb, hn, hw, -, -⟩ := sampleStep_next hstep
    exact .inr (.inr ⟨hr, hv, b, c, hi, hr, hv, rfl, hb, hn, hw⟩)

/-- The simulation relation: `d` is the side of the run on the transitions alone, whose last admitted sample is
no later than that of the full run in `s`. Everything beside the side is the same in both. -/
structure Thins (d : Side) (s : State) : Prop where
  lastIdx : ∀ n, d.lastIdx = some n → ∃ m, s.lastIdx = some m ∧ n ≤ m
  inputs : d.inputs = transitionsOnly s.prevClk s.inputs

/-- A sample admitted in the full run is admitted in the thinned one (R166). -/
theorem Thins.offers {d : Side} {s : State} {S : Sample} {b : Bool} {c : BlockCycle}
    {rest rest' : List BlockCycle} (hd : Thins d s) (hi : s.inputs = c :: rest)
    (hi' : d.inputs = c :: rest') (h : Offers s S b rest) : Offers (s.withSide d) S b rest' := by
  obtain ⟨c', hc, hr, hv, hS, hb, hn, hw⟩ := h
  obtain rfl : c = c' := by
    rw [hi] at hc
    injection hc
  refine ⟨c, hi', hr, hv, hS, hb, fun n hl => ?_, hw⟩
  obtain ⟨m, hm, hle⟩ := hd.lastIdx n hl
  exact hle.trans_lt (hn m hm)

/-- The output side alone is seen by the side and nothing else. -/
theorem outputCycle_none_withSide (d : Side) (s : State) :
    (outputCycle none s).withSide d = s.withSide d := by
  simp [State.withSide]

/-- A sample at the clock level before it is seen by the side and nothing else (R94). -/
theorem finishSample_none_withSide {b : Bool} {s : State} (d : Side) (idx : Nat)
    (hp : s.prevClk = some b) : (finishSample idx b none s).withSide d = s.withSide d := by
  simp [State.withSide, ← hp]

/-- A step of the full run on an admitted sample is matched by the thinned run's step on the same sample. -/
theorem Thins.step_sample {d : Side} {s t : State} {S : Sample} {b : Bool} {rest : List BlockCycle}
    (h : Offers s S b rest) (h' : Offers (s.withSide d) S b (transitionsOnly (some b) rest))
    (ht : step s = .next t) :
    ∃ d', step (s.withSide d) = .next (t.withSide d') ∧ Thins d' t := by
  obtain ⟨u, hu, rfl⟩ := step_offers_next h ht
  obtain ⟨c, hi⟩ := step_inputs ht
  obtain ⟨c', hi', -⟩ := h
  have hrest : u.inputs = rest := (List.cons.inj (hi.symm.trans hi')).2
  let d₁ : Side := { d with inputs := transitionsOnly (some b) rest }
  have hu' : phaseAction S b ({ s with inputs := rest }.withSide d₁) = .next (u.withSide d₁) := by
    rw [phaseAction_withSide, hu]
    rfl
  refine ⟨(finishSample S.idx b (emission S.idx b { s with inputs := rest }) (u.withSide d₁)).side,
    (step_offers h').trans (congrArg (thenNext · _) hu'), ?_, ?_⟩
  · exact fun n hn => ⟨S.idx, rfl, (Option.some.inj hn).ge⟩
  · exact congrArg (transitionsOnly (some b)) hrest.symm

/-- A reset is kept in the thinned stream, and leaves both runs the same (R181). -/
theorem Thins.step_reset {d : Side} {s : State} {c : BlockCycle} {rest : List BlockCycle}
    (hd : d.inputs = c :: transitionsOnly none rest) (hr : c.rst = true) :
    ∃ d', step (s.withSide d) =
        .next ((applyReset c.cfg4bit { s with inputs := rest }).withSide d') ∧
      Thins d' (applyReset c.cfg4bit { s with inputs := rest }) :=
  ⟨(applyReset c.cfg4bit { s.withSide d with inputs := transitionsOnly none rest }).side,
    Machine.step_reset (s := s.withSide d) hd hr, fun _ hn => (nomatch hn), rfl⟩

/-- A sample at the clock level before it moves the full run's index premise alone (R94, R97). -/
theorem Thins.step_repeated {d : Side} {s t : State} {S : Sample} {b : Bool}
    {rest : List BlockCycle} (hd : Thins d s) (h : Offers s S b rest) (hp : s.prevClk = some b)
    (hthin : d.inputs = transitionsOnly (some b) rest) (ht : step s = .next t) :
    t.withSide d = s.withSide d ∧ Thins d t := by
  have hedge : edge s.prevClk b = .noEdge := (edge_noEdge_iff _ _).2 (.inr hp)
  rw [step_of_not_consumes h (hedge ▸ consumes_noEdge _)] at ht
  cases ht
  refine ⟨finishSample_none_withSide d _ hp, fun n hl => ?_, hthin⟩
  obtain ⟨m, hm, hle⟩ := hd.lastIdx n hl
  exact ⟨_, rfl, hle.trans (h.lastIdx_lt m hm).le⟩

/-- A step of the full run leaves the thinned run where it is, or is matched by a step of it. -/
theorem Thins.step {d : Side} {s t : State} (hd : Thins d s) (ht : step s = .next t) :
    (t.withSide d = s.withSide d ∧ Thins d t) ∨
      ∃ d', step (s.withSide d) = .next (t.withSide d') ∧ Thins d' t := by
  obtain ⟨c, rest, hi, -⟩ := step_next ht
  have hthin := hd.inputs
  rw [hi] at hthin
  obtain ⟨hr, rfl⟩ | ⟨hr, hv, rfl⟩ | ⟨hr, hv, b, hoff⟩ := step_cases_of_cycle hi ht
  · rw [transitionsOnly_reset _ _ hr] at hthin
    exact .inr (Thins.step_reset hthin hr)
  · rw [transitionsOnly_gap _ _ hr hv] at hthin
    exact .inl ⟨outputCycle_none_withSide d _, hd.lastIdx, hthin⟩
  · rw [transitionsOnly_sample _ _ hr hv hoff.clk_level] at hthin
    split at hthin
    · rename_i hp
      exact .inl (hd.step_repeated hoff hp (hp ▸ hthin) ht)
    · exact .inr (Thins.step_sample hoff (hd.offers hi hthin hoff) ht)

/-! ### Runs to the end of the stream -/

theorem runsOut_of_inputs_nil {s : State} (h : s.inputs = []) : RunsOut s s := by
  unfold RunsOut
  rw [h]
  exact runsTo_zero.2 rfl

theorem runsOut_of_step {s u t : State} (h : step s = .next u) (hu : RunsOut u t) : RunsOut s t := by
  obtain ⟨c, hi⟩ := step_inputs h
  unfold RunsOut
  rw [hi]
  exact runsTo_succ.2 ⟨u, h, hu⟩

/-- A full run that runs out is matched by a thinned run that does, and they end with the same transaction. -/
theorem Thins.runsOut {k : Nat} {d : Side} {s t : State} (hd : Thins d s) (hk : s.inputs.length = k)
    (h : RunsTo k s t) : ∃ d', RunsOut (s.withSide d) (t.withSide d') := by
  induction k generalizing s d with
  | zero =>
    obtain rfl := runsTo_zero.1 h
    have hnil : (s.withSide d).inputs = [] := by
      rw [← transitionsOnly_nil s.prevClk, ← List.eq_nil_of_length_eq_zero hk]
      exact hd.inputs
    exact ⟨d, runsOut_of_inputs_nil hnil⟩
  | succ k ih =>
    obtain ⟨u, hu, h⟩ := runsTo_succ.1 h
    obtain ⟨c, hi⟩ := step_inputs hu
    have hk : u.inputs.length = k := by simpa [hi] using hk
    obtain ⟨heq, hd⟩ | ⟨d', hstep, hd⟩ := hd.step hu
    · exact heq ▸ ih hd hk h
    · obtain ⟨d'', hout⟩ := ih hd hk h
      exact ⟨d'', runsOut_of_step hstep hout⟩

/-- Settles O40: at the start the thinned stream is the only difference, and the side holds none of the fields
spoken of. -/
theorem transitionOnlyStreamGivesTheSameRecords :
    Obligations.TransitionOnlyStreamGivesTheSameRecords := by
  intro s t h
  have hd : Thins { s.side with inputs := transitionsOnly s.prevClk s.inputs } s :=
    ⟨fun n hn => ⟨n, hn, le_rfl⟩, rfl⟩
  obtain ⟨d, hout⟩ := hd.runsOut rfl h
  exact ⟨t.withSide d, hout, rfl, rfl, rfl, rfl, rfl⟩

end Sys2Proof.Machine
end

section
/-! PROOFS of the transaction state machine (spec/42_transaction_state_machine.md): the edge actions, the 4-bit
reassembly, the streams of one and two clock cycles, and what every run keeps of a transaction. -/

namespace Sys2Proof.Machine

/-! ### Consumed edges (R100 to R104, R109, R110) -/

theorem phaseAction_fall {s : State} (S : Sample) (hp : s.phase = .waitFall)
    (he : s.prevClk = some true) : phaseAction S false s = fallingAction S s := by
  simp [phaseAction, hp, he, edge]

theorem phaseAction_rise {s : State} (S : Sample) (hp : s.phase ≠ .waitFall)
    (he : s.prevClk = some false) : phaseAction S true s = .next (resumeWaitFall s) := by
  cases h : s.phase with
  | waitFall => exact absurd h hp
  | waitRiseSilent => simp [phaseAction, h, he, edge]
  | waitRiseEmit => simp [phaseAction, h, he, edge]

/-! `falling_action`, an equation per mode (R101 to R104). -/

theorem fallingAction_eightBit {s : State} (S : Sample) (hm : s.mode = .eightBit) :
    fallingAction S s = completeSample S (sampleToByte S) (eightBitStart S s) := by
  simp only [fallingAction, hm]

theorem fallingAction_firstNibble {s : State} (S : Sample) (hm : s.mode = .fourBitFirstNibble) :
    fallingAction S s = .next (firstNibbleAction S s) := by
  simp only [fallingAction, hm]

theorem fallingAction_secondNibble {s : State} (S : Sample) (hm : s.mode = .fourBitSecondNibble) :
    fallingAction S s =
      completeSample S (reassemble s.pend (sampleToByte S)) (secondNibbleStart S s) := by
  simp only [fallingAction, hm]

theorem fallingAction_ignored {s : State} (S : Sample) (hm : s.mode = .ignored) :
    fallingAction S s = .next (ignoredAction s) := by
  simp only [fallingAction, hm]

/-- A consumed falling edge runs the action of its mode and emits nothing. -/
theorem step_fall {s : State} {S : Sample} {rest : List BlockCycle} (h : Offers s S false rest)
    (hp : s.phase = .waitFall) (he : s.prevClk = some true) :
    step s = thenNext (fallingAction S { s with inputs := rest }) (finishSample S.idx false none) := by
  rw [step_offers h, phaseAction_fall (s := { s with inputs := rest }) S hp he, emission_eq,
    if_neg (by simp)]

/-- A consumed rising edge ends the wait, with the emission that the wait was for. -/
theorem step_rise {s : State} {S : Sample} {rest : List BlockCycle} (h : Offers s S true rest)
    (hp : s.phase ≠ .waitFall) (he : s.prevClk = some false) :
    step s = .next (finishSample S.idx true (emission S.idx true { s with inputs := rest })
      (resumeWaitFall { s with inputs := rest })) := by
  rw [step_offers h, phaseAction_rise (s := { s with inputs := rest }) S hp he]
  rfl

/-- A completion sample with RS or RW indeterminate is refused (R165). -/
theorem completeSample_indet {S : Sample} (v : Byte) (s : State) (h : S.rs = .indet ∨ S.rw = .indet) :
    completeSample S v s = .refused .ctrlIndeterminate := by
  obtain h | h := h
  · simp [completeSample, h, LineState.level]
  · cases hrs : S.rs <;> simp [completeSample, h, hrs, LineState.level]

/-- Settles O23: `step_eightBit_fall` where RS and RW are known, else the completion is refused. -/
theorem eightBitFallingEdgeRunsTheDecodedInstruction :
    Obligations.EightBitFallingEdgeRunsTheDecodedInstruction := by
  intro s S rest h hm hp he
  refine ⟨fun rs rw hrs hrw => step_eightBit_fall h hm hp he hrs hrw, fun hx => ?_⟩
  rw [step_fall h hp he, fallingAction_eightBit (s := { s with inputs := rest }) S hm,
    completeSample_indet _ _ hx]
  rfl

/-- Settles O24: the falling action of the mode runs no instruction. -/
theorem firstNibbleFallingEdge : Obligations.FirstNibbleFallingEdge := by
  intro s S rest h hm hp he
  rw [step_fall h hp he, fallingAction_firstNibble (s := { s with inputs := rest }) S hm]
  rfl

/-- Settles O26: the falling action of the mode writes `phase` only. -/
theorem ignoredFallingEdge : Obligations.IgnoredFallingEdge := by
  intro s S rest h hm hp he
  rw [step_fall h hp he, fallingAction_ignored (s := { s with inputs := rest }) S hm]
  rfl

/-- Settles O27: a silent wait has no emission. -/
theorem silentRise : Obligations.SilentRise := by
  intro s S rest h hp he
  rw [step_rise h (by simp [hp]) he, emission_eq, if_neg (by simp [hp])]
  rfl

/-- Settles O28: the emission of the wait is the record of the transaction in progress. -/
theorem emittingRise : Obligations.EmittingRise := by
  intro s S rest h hp he
  rw [step_rise h (by simp [hp]) he, emission_eq, if_pos ⟨hp, he, rfl⟩]
  exact ⟨_, rfl, rfl, rfl⟩

/-! ### The 4-bit reassembly (R103, R105) -/

/-- The reassembled value is the 8-bit number of the sum of the nibbles. -/
theorem reassemble_eq_ofNat (p : Nibble) (b : Byte) :
    reassemble p b = BitVec.ofNat 8 (b.toNat / 16 + p.toNat) := by
  obtain ⟨hsum, -⟩ := reassemble_toNat p b
  rw [← hsum, BitVec.ofNat_toNat, BitVec.setWidth_eq]

/-- A merge of two nibbles as a number. -/
theorem merge_toNat (a b : Byte) :
    (b.extractLsb' 4 4 ++ a.extractLsb' 0 4 : Byte).toNat = b.toNat / 16 * 16 + a.toNat % 16 := by
  have hb : b.toNat < 256 := b.isLt
  rw [BitVec.toNat_append, ← Nat.shiftLeft_add_eq_or_of_lt (BitVec.isLt _)]
  simp only [BitVec.extractLsb'_toNat, Nat.shiftLeft_eq, Nat.shiftRight_eq_div_pow]
  omega

/-- Settles O7: each part is arithmetic on the sum of the nibbles, which is at most 30. -/
theorem reassemblyAddsTheNibbles : Obligations.ReassemblyAddsTheNibbles := by
  intro a b
  obtain ⟨hsum, hle⟩ := reassemble_toNat (lowNibble a) b
  rw [lowNibble_toNat] at hsum
  refine ⟨hsum, hle, ?_, ?_, ?_⟩
  · rw [BitVec.getLsbD, Nat.testBit_eq_decide_div_mod_eq, decide_eq_true_iff]
    omega
  · apply BitVec.eq_of_toNat_eq
    rw [BitVec.extractLsb'_toNat, Nat.shiftRight_eq_div_pow]
    exact congrArg (· % 2 ^ 3) (Nat.div_eq_of_lt (by omega))
  · rw [← BitVec.toNat_inj, merge_toNat, hsum]
    omega

/-- The writes before a second nibble's completion, with the start stamp of R107. -/
theorem secondNibbleStart_eq (S : Sample) (s : State) :
    secondNibbleStart S s =
      { s with
        mode := .fourBitFirstNibble
        tStart := if s.params.pStart4 = .secondNibble then S.idx else s.tStart } := by
  rw [← secondNibbleStart_tStart]
  rfl

/-- Settles O25: the falling action of the mode completes the reassembled value. -/
theorem secondNibbleFallingEdgeRunsTheDecodedInstruction :
    Obligations.SecondNibbleFallingEdgeRunsTheDecodedInstruction := by
  intro s S rest h hm hp he
  rw [step_fall h hp he, fallingAction_secondNibble (s := { s with inputs := rest }) S hm]
  refine ⟨fun rs rw hrs hrw => ?_, fun hx => ?_⟩
  · rw [reassemble_eq_ofNat, secondNibbleStart_eq]
    simp only [completeSample, hrs, hrw]
  · rw [completeSample_indet _ _ hx]
    rfl

/-! ### What a reassembled value decodes to (R114) -/

/-- A record that a 4-bit transaction can carry. -/
def FourBitRecord (r : Record) : Prop :=
  r.value.toNat ≤ 30 ∧ r.cat ≠ .functionSet ∧ r.cat ≠ .setCGRAMAddress ∧ r.cat ≠ .setDDRAMAddress

/-- The command writes below 32 are the first five categories, none of which writes the mode. -/
theorem commandWrite_lt_32 {v : Byte} (hv : v.toNat < 32) :
    (∀ m, modeAfter (commandWrite v) m = m) ∧ (recordOf (commandWrite v)).cat ≠ .functionSet ∧
      (recordOf (commandWrite v)).cat ≠ .setCGRAMAddress ∧
      (recordOf (commandWrite v)).cat ≠ .setDDRAMAddress := by
  unfold commandWrite
  split_ifs <;> simp [modeAfter, recordOf, plainRecord]

/-- On every path of the classifier a value below 32 selects none of the three categories above it. -/
theorem decodeCW_lt_32 {v : Byte} (rs rw : Bool) (hv : v.toNat < 32) :
    (∀ m, modeAfter (decodeCW (packCW rs rw v)) m = m) ∧
      (recordOf (decodeCW (packCW rs rw v))).cat ≠ .functionSet ∧
      (recordOf (decodeCW (packCW rs rw v))).cat ≠ .setCGRAMAddress ∧
      (recordOf (decodeCW (packCW rs rw v))).cat ≠ .setDDRAMAddress := by
  rw [decodeCW_packCW]
  match rs, rw with
  | false, false => exact commandWrite_lt_32 hv
  | false, true | true, false | true, true => simp [selectPath, modeAfter, recordOf, plainRecord]

theorem modeAfter_reassemble (rs rw : Bool) (p : Nibble) (b : Byte) (m : Mode) :
    modeAfter (decodeCW (packCW rs rw (reassemble p b))) m = m := by
  obtain ⟨-, hle⟩ := reassemble_toNat p b
  exact (decodeCW_lt_32 rs rw (by omega)).1 m

theorem fourBitRecord_reassemble (rs rw : Bool) (p : Nibble) (b : Byte) :
    FourBitRecord (recordOf (decodeCW (packCW rs rw (reassemble p b)))) := by
  obtain ⟨-, hle⟩ := reassemble_toNat p b
  refine ⟨?_, (decodeCW_lt_32 rs rw (by omega)).2⟩
  rwa [recordOf_value, decodeCW_value]

/-! ### What a step without reset emits (R110, R111) -/

/-- A sample in WaitRiseEmit ends the wait with its emission, or is skipped with none. -/
theorem PhaseCase.of_waitRiseEmit {S : Sample} {c : Bool} {s u : State} (h : PhaseCase S c s u)
    (hp : s.phase = .waitRiseEmit) :
    (s.prevClk = some false ∧ c = true ∧ u = resumeWaitFall s) ∨
      (¬(s.prevClk = some false ∧ c = true) ∧ u = s) := by
  cases h with
  | rise _ he hc => exact .inl ⟨he, hc, rfl⟩
  | skip hskip =>
    refine .inr ⟨?_, rfl⟩
    rintro ⟨he, rfl⟩
    simp [hp, he, edge, consumes] at hskip
  | eightBit _ _ hfall | firstNibble hfall | secondNibble _ _ hfall | ignored hfall =>
    exact nomatch hp.symm.trans hfall

/-- From WaitRiseEmit a step keeps waiting with the same transaction, or is the emitting rise. -/
theorem StepCase.of_waitRiseEmit {s t : State} (h : StepCase s t) (hp : s.phase = .waitRiseEmit) :
    (t.phase = .waitRiseEmit ∧ t.tRec = s.tRec ∧ t.tStart = s.tStart ∧ t.emitted = s.emitted) ∨
      ∃ c rest, s.inputs = c :: rest ∧ c.sValid = true ∧ (∀ n, s.lastIdx = some n → n < c.sIdx) ∧
        t = finishSample c.sIdx true
          (some { startIdx := s.tStart, endIdx := c.sIdx, record := s.tRec })
          (resumeWaitFall { s with inputs := rest }) := by
  cases h with
  | idle rest => exact .inl ⟨hp, rfl, rfl, by simp⟩
  | sample c rest b u hi hv hclk hn hw hu =>
    obtain ⟨he, rfl, rfl⟩ | ⟨hskip, rfl⟩ := hu.of_waitRiseEmit hp
    · exact .inr ⟨c, rest, hi, hv, hn, by rw [emission_eq, if_pos ⟨hp, he, rfl⟩]⟩
    · have hnone : emission c.sIdx b s = none := by rw [emission_eq, if_neg (hskip ·.2)]
      exact .inl ⟨hp, rfl, rfl, by simp [hnone]⟩

/-- Outside WaitRiseEmit nothing is emitted. -/
theorem StepCase.emitted_of_ne {s t : State} (h : StepCase s t) (hp : s.phase ≠ .waitRiseEmit) :
    t.emitted = s.emitted := by
  cases h with
  | idle rest => simp
  | sample c rest b u hi hv hclk hn hw hu =>
    have hnone : emission c.sIdx b s = none := by rw [emission_eq, if_neg (hp ·.1)]
    simp [hnone, hu.emitted_eq]

/-- What a step emits is nothing, or the record that waited. -/
theorem StepCase.emitted_append {s t : State} (h : StepCase s t) :
    ∃ new, t.emitted = s.emitted ++ new ∧
      ∀ a ∈ new, s.phase = .waitRiseEmit ∧ a.startIdx = s.tStart ∧ a.record = s.tRec := by
  by_cases hp : s.phase = .waitRiseEmit
  · obtain ⟨-, -, -, hem⟩ | ⟨c, rest, -, -, -, rfl⟩ := h.of_waitRiseEmit hp
    · exact ⟨[], by simp [hem], nofun⟩
    · exact ⟨_, rfl, List.forall_mem_singleton.2 ⟨hp, rfl, rfl⟩⟩
  · exact ⟨[], by simp [h.emitted_of_ne hp], nofun⟩

/-! ### A 4-bit mode ends only by reset (R114) -/

/-- What a run from `s` in a 4-bit mode keeps: every record completed since `s` is a 4-bit record. -/
structure FourBitSince (s t : State) : Prop where
  mode : t.mode.isFourBit = true
  emitted : ∀ a ∈ t.emitted,
    a ∈ s.emitted ∨ (s.phase = .waitRiseEmit ∧ a.record = s.tRec) ∨ FourBitRecord a.record
  record : t.tRec = s.tRec ∨ FourBitRecord t.tRec
  pending : t.phase = .waitRiseEmit →
    (s.phase = .waitRiseEmit ∧ t.tRec = s.tRec) ∨ FourBitRecord t.tRec

theorem FourBitSince.refl {s : State} (hm : s.mode.isFourBit = true) : FourBitSince s s where
  mode := hm
  emitted _ ha := .inl ha
  record := .inl rfl
  pending hp := .inl ⟨hp, rfl⟩

/-- A phase action in a 4-bit mode leaves one, and completes 4-bit records only. -/
theorem PhaseCase.keeps_fourBitSince {S : Sample} {c : Bool} {s u v : State}
    (h : PhaseCase S c u v) (hu : FourBitSince s u) : FourBitSince s v := by
  have hmode := hu.mode
  cases h with
  | eightBit rs rw hp he hc hm => simp [hm, Mode.isFourBit] at hmode
  | firstNibble => exact { hu with mode := rfl, pending := nofun }
  | secondNibble rs rw =>
    have hrec := fourBitRecord_reassemble rs rw u.pend (sampleToByte S)
    exact
      { mode := by simp [modeAfter_reassemble, Mode.isFourBit]
        emitted := hu.emitted
        record := .inr hrec
        pending := fun _ => .inr hrec }
  | ignored hp he hc hm => simp [hm, Mode.isFourBit] at hmode
  | rise => exact { hu with pending := nofun }
  | skip => exact hu

theorem StepCase.keeps_fourBitSince {s u t : State} (h : StepCase u t) (hu : FourBitSince s u) :
    FourBitSince s t := by
  have hem : ∀ a ∈ t.emitted,
      a ∈ s.emitted ∨ (s.phase = .waitRiseEmit ∧ a.record = s.tRec) ∨ FourBitRecord a.record := by
    intro a ha
    obtain ⟨new, hnew, hwaited⟩ := h.emitted_append
    obtain ha | ha := List.mem_append.1 (hnew ▸ ha)
    · exact hu.emitted a ha
    · obtain ⟨hp, -, hrec⟩ := hwaited a ha
      exact .inr (hrec ▸ hu.pending hp)
  cases h with
  | idle rest => exact { hu with emitted := hem }
  | sample c rest b v hi hv hclk hn hw hcase =>
    have hin : FourBitSince s { u with inputs := rest } := { hu with }
    exact { hcase.keeps_fourBitSince hin with emitted := hem }

/-- Settles O37: every step without reset keeps `FourBitSince`. -/
theorem fourBitModeEndsOnlyByReset : Obligations.FourBitModeEndsOnlyByReset := by
  intro s t k hm hn h
  have ht : FourBitSince s t := runsTo_keeps_noReset (FourBitSince s)
    (fun _ _ hu hstep => hstep.keeps_fourBitSince hu) (.refl hm) hn h
  exact ⟨ht.mode, ht.emitted, ht.record⟩

/-! ### Ignored absorbs (R115) -/

/-- A step in Ignored with no record waiting stays there and emits nothing. -/
theorem StepCase.keeps_ignored {s t : State} (h : StepCase s t) (hm : s.mode = .ignored)
    (hp : s.phase ≠ .waitRiseEmit) :
    t.mode = .ignored ∧ t.phase ≠ .waitRiseEmit ∧ t.emitted = s.emitted := by
  refine and_assoc.1 ⟨?_, h.emitted_of_ne hp⟩
  cases h with
  | idle rest => exact ⟨hm, hp⟩
  | sample c rest b u hi hv hclk hn hw hu =>
    cases hu with
    | ignored => exact ⟨hm, by simp⟩
    | rise => exact ⟨hm, by simp⟩
    | skip => exact ⟨hm, hp⟩
    | eightBit _ _ _ _ _ hm' | firstNibble _ _ _ hm' | secondNibble _ _ _ _ _ hm' =>
      exact nomatch hm.symm.trans hm'

/-- Settles O51: R37's first item holds along every run from reset; and every step without reset keeps an
Ignored that waits for no emission. -/
theorem ignoredIsUnreachableAndAbsorbs : Obligations.IgnoredIsUnreachableAndAbsorbs := by
  refine ⟨fun cfg4bit s t k h => ?_, fun s t k hm hp hn h => ?_⟩
  · obtain ⟨hinv, -⟩ := inv_and_outputOrdered_of_runsTo_applyReset h
    exact hinv.notIgnored
  · obtain ⟨hmt, -, hem⟩ := runsTo_keeps_noReset
      (fun u => u.mode = .ignored ∧ u.phase ≠ .waitRiseEmit ∧ u.emitted = s.emitted)
      (fun u v ⟨hmu, hpu, hemu⟩ hstep => hemu ▸ hstep.keeps_ignored hmu hpu) ⟨hm, hp, rfl⟩ hn h
    exact ⟨hmt, hem⟩

/-! ### The fields no rule reads before it writes them (R113) -/

theorem AgreeWhereRead.withInputs {s t : State} (h : AgreeWhereRead s t) (rest : List BlockCycle) :
    AgreeWhereRead { s with inputs := rest } { t with inputs := rest } :=
  { h with inputs := rfl }

/-- A completion reads the start stamp it stands for, and writes the record. -/
theorem AgreeWhereRead.completed {s t : State} (h : AgreeWhereRead s t) (i : Instr)
    (hstart : s.tStart = t.tStart) : AgreeWhereRead (completed i s) (completed i t) where
  params := h.params
  mode := congrArg (modeAfter i) h.mode
  phase := rfl
  prevClk := h.prevClk
  out := h.out
  outPipe := h.outPipe
  emitted := h.emitted
  lastIdx := h.lastIdx
  inputs := h.inputs
  pend hm := h.pend (by
    by_contra hne
    exact modeAfter_ne hne (by decide) (by decide) hm)
  tStart _ := hstart
  tRec _ := rfl

theorem AgreeWhereRead.completeSample {s t : State} (h : AgreeWhereRead s t) (S : Sample) (v : Byte)
    (hstart : s.tStart = t.tStart) :
    ResultsAgree (completeSample S v s) (completeSample S v t) := by
  cases hrs : S.rs.level <;> cases hrw : S.rw.level <;>
    simp only [Machine.completeSample, hrs, hrw, exec_eq_completed]
  case some.some => exact h.completed _ hstart
  all_goals rfl

/-- Each falling action reads `pend` and the start stamp only in FourBitSecondNibble. -/
theorem AgreeWhereRead.fallingAction {s t : State} (h : AgreeWhereRead s t) (S : Sample) :
    ResultsAgree (fallingAction S s) (fallingAction S t) := by
  cases hm : s.mode
  case eightBit =>
    rw [fallingAction_eightBit S hm, fallingAction_eightBit S (h.mode ▸ hm)]
    have hstart : AgreeWhereRead (eightBitStart S s) (eightBitStart S t) :=
      { h with tStart := fun _ => rfl }
    exact hstart.completeSample S _ rfl
  case fourBitFirstNibble =>
    rw [fallingAction_firstNibble S hm, fallingAction_firstNibble S (h.mode ▸ hm)]
    exact { h with mode := rfl, phase := rfl, pend := fun _ => rfl, tStart := fun _ => rfl, tRec := nofun }
  case fourBitSecondNibble =>
    rw [fallingAction_secondNibble S hm, fallingAction_secondNibble S (h.mode ▸ hm), h.pend hm]
    have hstamp : (secondNibbleStart S s).tStart = (secondNibbleStart S t).tStart := by
      rw [secondNibbleStart_tStart, secondNibbleStart_tStart, h.params, h.tStart (.inl hm)]
    have hstart : AgreeWhereRead (secondNibbleStart S s) (secondNibbleStart S t) :=
      { h with mode := rfl, pend := nofun, tStart := fun _ => hstamp }
    exact hstart.completeSample S _ hstamp
  case ignored =>
    rw [fallingAction_ignored S hm, fallingAction_ignored S (h.mode ▸ hm)]
    exact
      { h with
        phase := rfl
        tStart := fun hheld => h.tStart (.inl (hheld.resolve_right nofun))
        tRec := nofun }

theorem AgreeWhereRead.resumeWaitFall {s t : State} (h : AgreeWhereRead s t) :
    AgreeWhereRead (resumeWaitFall s) (resumeWaitFall t) :=
  { h with
    phase := rfl
    tStart := fun hheld => h.tStart (.inl (hheld.resolve_right nofun))
    tRec := nofun }

theorem AgreeWhereRead.phaseAction {s t : State} (h : AgreeWhereRead s t) (S : Sample) (c : Bool) :
    ResultsAgree (phaseAction S c s) (phaseAction S c t) := by
  have hphase := h.phase
  have hclk := h.prevClk
  cases hcons : consumes s.phase (edge s.prevClk c) with
  | false =>
    rw [phaseAction_of_not_consumes hcons, phaseAction_of_not_consumes (hphase ▸ hclk ▸ hcons)]
    exact h
  | true =>
    obtain ⟨hp, he⟩ | ⟨hp, he⟩ := (consumes_iff _ _).1 hcons
    · obtain ⟨hhigh, rfl⟩ := (edge_fall_iff _ _).1 he
      rw [phaseAction_fall S hp hhigh, phaseAction_fall S (hphase ▸ hp) (hclk ▸ hhigh)]
      exact h.fallingAction S
    · obtain ⟨hlow, rfl⟩ := (edge_rise_iff _ _).1 he
      rw [phaseAction_rise S hp hlow, phaseAction_rise S (hphase ▸ hp) (hclk ▸ hlow)]
      exact h.resumeWaitFall

/-- An emission reads the start stamp and the record in WaitRiseEmit alone. -/
theorem AgreeWhereRead.emission {s t : State} (h : AgreeWhereRead s t) (idx : Nat) (c : Bool) :
    emission idx c s = emission idx c t := by
  rw [emission_eq, emission_eq, ← h.phase, ← h.prevClk]
  split
  · rename_i hemit
    rw [h.tStart (.inr hemit.1), h.tRec hemit.1]
  · rfl

theorem AgreeWhereRead.outputCycle {s t : State} (h : AgreeWhereRead s t) (e : Option Annotation) :
    AgreeWhereRead (outputCycle e s) (outputCycle e t) :=
  { h with
    out := by simp [h.outPipe]
    outPipe := by simp [h.outPipe]
    emitted := by simp [h.emitted] }

theorem AgreeWhereRead.finishSample {s t : State} (h : AgreeWhereRead s t) (idx : Nat) (c : Bool)
    (e : Option Annotation) : AgreeWhereRead (finishSample idx c e s) (finishSample idx c e t) :=
  AgreeWhereRead.outputCycle (s := { s with prevClk := some c, lastIdx := some idx })
    (t := { t with prevClk := some c, lastIdx := some idx }) { h with prevClk := rfl, lastIdx := rfl } e

/-- A reset reads the parameters and the inputs, and leaves the unread fields the same (R181). -/
theorem AgreeWhereRead.applyReset {s t : State} (h : AgreeWhereRead s t) (f : Bool) :
    AgreeWhereRead (applyReset f s) (applyReset f t) where
  params := h.params
  mode := rfl
  phase := rfl
  prevClk := rfl
  out := rfl
  outPipe := by simp [h.params]
  emitted := rfl
  lastIdx := rfl
  inputs := h.inputs
  pend _ := rfl
  tStart _ := rfl
  tRec _ := rfl

/-- Agreeing answers are of one kind. -/
theorem ResultsAgree.cases {r r' : Result} (h : ResultsAgree r r') :
    (∃ s t, r = .next s ∧ r' = .next t ∧ AgreeWhereRead s t) ∨
      (∃ e, r = .fault e ∧ r' = .fault e) ∨ ∃ e, r = .refused e ∧ r' = .refused e := by
  cases r <;> cases r'
  case next.next s t => exact .inl ⟨s, t, rfl, rfl, h⟩
  case fault.fault e f => exact .inr (.inl ⟨e, rfl, congrArg _ (Eq.symm h)⟩)
  case refused.refused e f => exact .inr (.inr ⟨e, rfl, congrArg _ (Eq.symm h)⟩)
  all_goals exact h.elim

/-- Agreeing answers stay agreeing when what follows keeps the agreement. -/
theorem ResultsAgree.thenNext {r r' : Result} {f : State → State} (h : ResultsAgree r r')
    (hf : ∀ s t, AgreeWhereRead s t → AgreeWhereRead (f s) (f t)) :
    ResultsAgree (thenNext r f) (thenNext r' f) := by
  obtain ⟨s, t, rfl, rfl, hst⟩ | ⟨e, rfl, rfl⟩ | ⟨e, rfl, rfl⟩ := h.cases
  · exact hf s t hst
  · rfl
  · rfl

theorem AgreeWhereRead.sampleStep {s t : State} (h : AgreeWhereRead s t) (S : Sample) :
    ResultsAgree (sampleStep S s) (sampleStep S t) := by
  have hadm : indexAdmitted s S.idx = indexAdmitted t S.idx := by
    simp only [indexAdmitted, h.lastIdx, h.params]
  unfold Machine.sampleStep
  rw [← hadm]
  split
  · rfl
  · rename_i c _
    split
    · rw [← h.emission]
      exact (h.phaseAction S c).thenNext fun _ _ hu => hu.finishSample _ _ _
    · rfl

theorem AgreeWhereRead.step {s t : State} (h : AgreeWhereRead s t) :
    ResultsAgree (step s) (step t) := by
  cases hi : s.inputs with
  | nil => simp only [Machine.step, hi, ← h.inputs, ResultsAgree]
  | cons c rest =>
    rw [step_cons hi, step_cons (h.inputs ▸ hi)]
    have hin := h.withInputs rest
    unfold blockCycle
    split_ifs
    · exact hin.applyReset c.cfg4bit
    · exact hin.sampleStep (portSample c)
    · exact hin.outputCycle none

/-- Settles O38: the agreement is kept by each step, so by induction on the number of steps. -/
theorem unreadFieldsAreNeverObserved : Obligations.UnreadFieldsAreNeverObserved := by
  intro k
  induction k with
  | zero => exact fun s t h => h
  | succ k ih =>
    intro s t h
    obtain ⟨u, v, hs, ht, huv⟩ | ⟨e, hs, ht⟩ | ⟨e, hs, ht⟩ := h.step.cases
    · rw [runSteps_succ_next hs, runSteps_succ_next ht]
      exact ih u v huv
    · rw [runSteps_succ_fault hs, runSteps_succ_fault ht]
      rfl
    · rw [runSteps_succ_refused hs, runSteps_succ_refused ht]
      rfl

/-! ### A waiting transaction is emitted exactly once (R111, R189) -/

/-- In `t` the transaction that waited in `s` still waits. -/
structure StillWaiting (s t : State) : Prop where
  phase : t.phase = .waitRiseEmit
  tRec : t.tRec = s.tRec
  tStart : t.tStart = s.tStart
  emitted : t.emitted = s.emitted
  inv : Inv s → Inv t

/-- In `t` the transaction that waited in `s` has been emitted, ending at `i`. From a state that meets R37, every
start stamp since is past `i`. -/
structure EmittedOnce (s : State) (i : Nat) (t : State) : Prop where
  emitted : ∃ later : List Annotation,
    t.emitted = s.emitted ++ { startIdx := s.tStart, endIdx := i, record := s.tRec } :: later ∧
      (Inv s → ∀ a ∈ later, i < a.startIdx)
  startsLater : Inv s → StartHeld t → i < t.tStart
  seen : ∃ n, t.lastIdx = some n ∧ i ≤ n

/-- The emitting rise leaves no transaction in progress: by R37 no second nibble is due in WaitRiseEmit. -/
theorem StillWaiting.emittedOnce {s u : State} (h : StillWaiting s u) (i : Nat)
    (rest : List BlockCycle) :
    EmittedOnce s i (finishSample i true
      (some { startIdx := u.tStart, endIdx := i, record := u.tRec })
      (resumeWaitFall { u with inputs := rest })) where
  emitted := ⟨[], by simp [h.emitted, h.tStart, h.tRec], nofun⟩
  startsLater hs hheld := by
    have hm : u.mode = .fourBitSecondNibble := hheld.resolve_left (by simp)
    simpa [h.phase] using (h.inv hs).secondNibblePhase hm
  seen := ⟨i, rfl, le_rfl⟩

/-- A start stamp held after a step was held before it, or is the index of the step's sample. -/
theorem StepCase.startHeld {s t : State} (h : StepCase s t) (ht : StartHeld t) :
    (StartHeld s ∧ t.tStart = s.tStart) ∨ ∀ n, s.lastIdx = some n → n < t.tStart := by
  cases h with
  | idle rest => exact .inl ⟨ht, rfl⟩
  | sample c rest b u hi hv hclk hn hw hu =>
    obtain hidx | hheld := hu.startHeld ht
    · exact .inr fun n hl => (hn n hl).trans_eq hidx.symm
    · exact .inl hheld

/-- The last admitted index never falls without a reset (R166). -/
theorem StepCase.lastIdx_le {s t : State} (h : StepCase s t) {n : Nat} (hl : s.lastIdx = some n) :
    ∃ m, t.lastIdx = some m ∧ n ≤ m := by
  cases h with
  | idle rest => exact ⟨n, hl, le_rfl⟩
  | sample c rest b u hi hv hclk hn hw hu => exact ⟨c.sIdx, rfl, (hn n hl).le⟩

/-- What is emitted after the transaction is a later one. -/
theorem StepCase.keeps_emittedOnce {s u t : State} {i : Nat} (h : StepCase u t)
    (hu : EmittedOnce s i u) : EmittedOnce s i t := by
  obtain ⟨later, hem, hlater⟩ := hu.emitted
  obtain ⟨n, hl, hle⟩ := hu.seen
  obtain ⟨new, hnew, hwaited⟩ := h.emitted_append
  refine ⟨⟨later ++ new, by simp [hnew, hem], fun hs => ?_⟩, fun hs ht => ?_, ?_⟩
  · refine List.forall_mem_append.2 ⟨hlater hs, fun a ha => ?_⟩
    obtain ⟨hp, hstart, -⟩ := hwaited a ha
    exact (hu.startsLater hs (.inl hp)).trans_eq hstart.symm
  · obtain ⟨hheld, hkept⟩ | hnewStart := h.startHeld ht
    · exact (hu.startsLater hs hheld).trans_eq hkept.symm
    · exact hle.trans_lt (hnewStart n hl)
  · obtain ⟨m, hm, hnm⟩ := h.lastIdx_le hl
    exact ⟨m, hm, hle.trans hnm⟩

/-- A run from a waiting state still waits, or emitted the transaction at a sample it was offered. -/
theorem StillWaiting.run {k : Nat} {s u t : State} (hu : StillWaiting s u) (hn : NoResetIn k u)
    (h : RunsTo k u t) :
    StillWaiting s t ∨ ∃ i, (∃ c ∈ u.inputs.take k, c.sValid = true ∧ c.sIdx = i) ∧
      EmittedOnce s i t ∧ (Inv s → s.tStart < i) := by
  induction k generalizing u with
  | zero =>
    obtain rfl := runsTo_zero.1 h
    exact .inl hu
  | succ k ih =>
    obtain ⟨v, hv, h⟩ := runsTo_succ.1 h
    obtain ⟨c, hi⟩ := step_inputs hv
    obtain ⟨hn, hstep⟩ := step_noReset hn hv
    rw [hi, List.take_succ_cons]
    obtain ⟨hp, hrec, hstart, hem⟩ | ⟨c', rest, hi', hvalid, hidx, rfl⟩ := hstep.of_waitRiseEmit hu.phase
    · have hwait : StillWaiting s v :=
        ⟨hp, hrec.trans hu.tRec, hstart.trans hu.tStart, hem.trans hu.emitted,
          fun hs => hstep.keeps_inv (hu.inv hs)⟩
      obtain hwait | ⟨i, ⟨d, hd, hoffered⟩, hrest⟩ := ih hwait hn h
      · exact .inl hwait
      · exact .inr ⟨i, ⟨d, List.mem_cons_of_mem c hd, hoffered⟩, hrest⟩
    · obtain rfl : c = c' := (List.cons.inj (hi.symm.trans hi')).1
      refine .inr ⟨c.sIdx, ⟨c, List.mem_cons_self, hvalid, rfl⟩, ?_, fun hs => ?_⟩
      · exact runsTo_keeps_noReset (EmittedOnce s c.sIdx)
          (fun _ _ he hstep => hstep.keeps_emittedOnce he) (hu.emittedOnce c.sIdx rest) hn h
      · obtain ⟨-, hseen⟩ := (hu.inv hs).pendingRecord hu.phase
        exact hu.tStart ▸ hseen.tStart_lt hidx

/-- Settles O52: the run starts waiting, and its emission is followed by later transactions alone. -/
theorem waitingTransactionIsEmittedExactlyOnce :
    Obligations.WaitingTransactionIsEmittedExactlyOnce := by
  intro s t k hp hn h
  have hwait : StillWaiting s s := ⟨hp, rfl, rfl, rfl, id⟩
  obtain hwait | ⟨i, hoffered, honce, hlt⟩ := hwait.run hn h
  · exact .inl ⟨hwait.phase, hwait.tRec, hwait.tStart, hwait.emitted⟩
  · obtain ⟨later, hem, hlater⟩ := honce.emitted
    exact .inr ⟨i, later, hoffered, hem, fun hs => ⟨hlt hs, hlater hs⟩⟩

/-! ### The streams of one transaction -/

/-- Bit 4 of a FunctionSet value selects the mode it writes (R139). -/
theorem functionMode_eq_ite (v : Byte) :
    functionMode v = if v.toNat / 16 % 2 = 1 then .eightBit else .fourBitFirstNibble := by
  simp [functionMode, functionWidth8_eq_decide]

theorem modeAfter_commandWrite (v : Byte) (m : Mode) :
    modeAfter (commandWrite v) m = (classifyCommandWrite v).2.getD m := by
  unfold commandWrite classifyCommandWrite
  split_ifs <;> simp [modeAfter, functionMode_eq_ite, *]

/-- The instruction a classification word decodes to writes the classifier's mode (R131, R139). -/
theorem modeAfter_decodeCW (v : Byte) (rs rw : Bool) (m : Mode) :
    modeAfter (decodeCW (packCW rs rw v)) m = (classify v rs rw).2.getD m := by
  rw [decodeCW_packCW]
  match rs, rw with
  | false, false => exact modeAfter_commandWrite v m
  | false, true => rfl
  | true, false => rfl
  | true, true => rfl

theorem runsTo_add {j k : Nat} {s u t : State} (h : RunsTo j s u) (h' : RunsTo k u t) :
    RunsTo (j + k) s t := by
  induction j generalizing s with
  | zero =>
    obtain rfl := runsTo_zero.1 h
    rwa [Nat.zero_add]
  | succ j ih =>
    obtain ⟨v, hv, h⟩ := runsTo_succ.1 h
    rw [Nat.succ_add]
    exact runsTo_succ.2 ⟨v, hv, ih h⟩

theorem runsTo_two {s u t : State} (h : step s = .next u) (h' : step u = .next t) : RunsTo 2 s t :=
  runsTo_succ.2 ⟨u, h, runsTo_succ.2 ⟨t, h', runsTo_zero.2 rfl⟩⟩

/-- Ready for a clock cycle: in WaitFall with the clock high, after the sample with index `n` and before the
cycles `rest`. -/
structure ReadyAt (n : Nat) (rest : List BlockCycle) (s : State) : Prop where
  phase : s.phase = .waitFall
  prevClk : s.prevClk = some true
  lastIdx : s.lastIdx = some n
  inputs : s.inputs = rest

/-- The reset and the idle sample that start a stream (R72, R93). -/
theorem readyAt_of_cfg_idle (f : Bool) (items : List StreamItem) (s : State) :
    ∃ t, RunsTo 2 (s.withStream ([.cfg f] ++ idle ++ items)) t ∧
      ReadyAt 0 (assembleFrom f 1 items) t ∧ t.mode = configuredMode f ∧ t.params = s.params ∧
      t.emitted = [] := by
  have hreset := step_reset (s := s.withStream ([.cfg f] ++ idle ++ items)) (c := resetCycle f) rfl rfl
  have hoff : Offers _ _ true (assembleFrom f 1 items) :=
    offers_smp (s := applyReset f { s with inputs := assembleFrom f 0 (idle ++ items) }) rfl rfl
      (fun _ h => nomatch h) (Nat.two_pow_pos _)
  obtain ⟨-, hidle⟩ := firstSampleAfterResetIsNoEdge f _ _ true _ hoff
  exact ⟨_, runsTo_two hreset hidle, ⟨rfl, rfl, rfl, rfl⟩, rfl, rfl, rfl⟩

/-- One clock cycle: its fall does the mode's falling action, and its rise emits where that action completed a
transaction (R100). -/
theorem ReadyAt.clockCycle {s u : State} {f : Bool} {n : Nat} {rs rw : LineState} {d : DataLines}
    {rest : List BlockCycle}
    (h : ReadyAt n (smpCycle f (n + 1) rs .low d rw :: smpCycle f (n + 2) rs .high d rw :: rest) s)
    (hw : n + 2 < 2 ^ s.params.wIdx)
    (hfall : fallingAction (portSample (smpCycle f (n + 1) rs .low d rw))
      { s with inputs := smpCycle f (n + 2) rs .high d rw :: rest } = .next u)
    (hwait : u.phase ≠ .waitFall) (hparams : u.params = s.params)
    (hinputs : u.inputs = smpCycle f (n + 2) rs .high d rw :: rest) :
    ∃ t, RunsTo 2 s t ∧ ReadyAt (n + 2) rest t ∧ t.mode = u.mode ∧ t.tStart = u.tStart ∧
      t.pend = u.pend ∧ t.params = s.params ∧
      t.emitted = u.emitted ++
        if u.phase = .waitRiseEmit then
          [{ startIdx := u.tStart, endIdx := n + 2, record := u.tRec }]
        else [] := by
  have hlow : Offers s _ false _ := offers_smp h.inputs rfl (by simp [h.lastIdx]) (by omega)
  have hhigh : Offers (finishSample (n + 1) false none u) _ true rest :=
    offers_smp hinputs rfl (by simp) (by simpa [hparams] using hw)
  have hstep := step_fall hlow h.phase h.prevClk
  rw [hfall] at hstep
  refine ⟨_, runsTo_two hstep (step_rise hhigh hwait rfl), ⟨rfl, rfl, rfl, rfl⟩, rfl, rfl, rfl, hparams, ?_⟩
  rw [emission_eq]
  by_cases hemit : u.phase = .waitRiseEmit <;> simp [hemit]

/-- A byte in hexadecimal is known on every line (R72). -/
@[simp] theorem ofByte_level_and_known (v : Byte) :
    (DataLines.ofByte v).level &&& (DataLines.ofByte v).known = v :=
  BitVec.and_allOnes

/-- A `smp` with known control bits completes. -/
theorem completeSample_smp (f : Bool) (n : Nat) (rs rw : Bool) (clk : LineState) (d : DataLines)
    (v : Byte) (s : State) :
    completeSample (portSample (smpCycle f n (bitLine rs) clk d (bitLine rw))) v s =
      .next (completed (decodeCW (packCW rs rw v)) s) :=
  completeSample_known v s (by rw [smpCycle_rs, bitLine_level]) (by rw [smpCycle_rw, bitLine_level])

/-- A clock cycle in EightBit emits the record of its byte (R101, R110). -/
theorem ReadyAt.eightBitCycle {s : State} {f : Bool} {n : Nat} {rs rw : Bool} {v : Byte}
    {rest : List BlockCycle}
    (h : ReadyAt n (smpCycle f (n + 1) (bitLine rs) .low (.ofByte v) (bitLine rw) ::
      smpCycle f (n + 2) (bitLine rs) .high (.ofByte v) (bitLine rw) :: rest) s)
    (hw : n + 2 < 2 ^ s.params.wIdx) (hm : s.mode = .eightBit) :
    ∃ t, RunsTo 2 s t ∧ ReadyAt (n + 2) rest t ∧ t.mode = (classify v rs rw).2.getD .eightBit ∧
      t.emitted = s.emitted ++
        [{ startIdx := n + 1, endIdx := n + 2, record := (classify v rs rw).1 }] := by
  have hfall := (fallingAction_eightBit
      (s := { s with
        inputs := smpCycle f (n + 2) (bitLine rs) .high (.ofByte v) (bitLine rw) :: rest }) _ hm).trans
    (completeSample_smp f (n + 1) rs rw .low (.ofByte v) _ _)
  obtain ⟨t, hrun, hready, hmode, -, -, -, hem⟩ := h.clockCycle hw hfall nofun rfl rfl
  refine ⟨t, hrun, hready, ?_, ?_⟩
  · simp [hmode, hm, modeAfter_decodeCW]
  · simp [hem, recordOf_decodeCW]

/-- A clock cycle in FourBitFirstNibble keeps its index and its low nibble, and emits nothing (R102, R109). -/
theorem ReadyAt.firstNibbleCycle {s : State} {f : Bool} {n : Nat} {rs rw : LineState} {a : Byte}
    {rest : List BlockCycle}
    (h : ReadyAt n (smpCycle f (n + 1) rs .low (.ofByte a) rw ::
      smpCycle f (n + 2) rs .high (.ofByte a) rw :: rest) s)
    (hw : n + 2 < 2 ^ s.params.wIdx) (hm : s.mode = .fourBitFirstNibble) :
    ∃ t, RunsTo 2 s t ∧ ReadyAt (n + 2) rest t ∧ t.mode = .fourBitSecondNibble ∧
      t.tStart = n + 1 ∧ t.pend = lowNibble a ∧ t.params = s.params ∧ t.emitted = s.emitted := by
  have hfall := fallingAction_firstNibble
    (s := { s with inputs := smpCycle f (n + 2) rs .high (.ofByte a) rw :: rest })
    (portSample (smpCycle f (n + 1) rs .low (.ofByte a) rw)) hm
  obtain ⟨t, hrun, hready, hmode, hstart, hpend, hparams, hem⟩ := h.clockCycle hw hfall nofun rfl rfl
  exact ⟨t, hrun, hready, hmode, hstart, by simp [hpend], hparams, by simp [hem]⟩

/-- A clock cycle in FourBitSecondNibble emits the record of the reassembled value (R103, R107, R110). -/
theorem ReadyAt.secondNibbleCycle {s : State} {f : Bool} {n : Nat} {rs rw : Bool} {b : Byte}
    {rest : List BlockCycle}
    (h : ReadyAt n (smpCycle f (n + 1) (bitLine rs) .low (.ofByte b) (bitLine rw) ::
      smpCycle f (n + 2) (bitLine rs) .high (.ofByte b) (bitLine rw) :: rest) s)
    (hw : n + 2 < 2 ^ s.params.wIdx) (hm : s.mode = .fourBitSecondNibble) :
    ∃ t, RunsTo 2 s t ∧ ReadyAt (n + 2) rest t ∧ t.mode = .fourBitFirstNibble ∧
      t.emitted = s.emitted ++
        [{ startIdx := if s.params.pStart4 = .secondNibble then n + 1 else s.tStart
           endIdx := n + 2
           record := (classify (reassemble s.pend b) rs rw).1 }] := by
  have hfall := (fallingAction_secondNibble
      (s := { s with
        inputs := smpCycle f (n + 2) (bitLine rs) .high (.ofByte b) (bitLine rw) :: rest }) _ hm).trans
    (completeSample_smp f (n + 1) rs rw .low (.ofByte b) _ _)
  obtain ⟨t, hrun, hready, hmode, -, -, -, hem⟩ := h.clockCycle hw hfall nofun rfl rfl
  refine ⟨t, hrun, hready, ?_, ?_⟩
  · simp [hmode, modeAfter_reassemble]
  · simp [hem, recordOf_decodeCW, secondNibbleStart_tStart]

/-- Settles O53: the reset and the idle sample, then one clock cycle in EightBit. -/
theorem eightBitStreamEmitsItsClassification : Obligations.EightBitStreamEmitsItsClassification := by
  intro s rs rw v hw
  obtain ⟨s₁, hrun₁, hready₁, hmode₁, hparams₁, hem₁⟩ :=
    readyAt_of_cfg_idle false (cyc (bitLine rs) (bitLine rw) (.ofByte v)) s
  obtain ⟨t, hrun₂, hready₂, hmode₂, hem₂⟩ := hready₁.eightBitCycle (by rwa [hparams₁]) hmode₁
  have hrun : RunsTo 4 _ t := runsTo_add hrun₁ hrun₂
  exact ⟨t, hrun, by simpa [hem₁] using hem₂, hmode₂, hready₂.phase⟩

/-- Settles O54: the reset and the idle sample, then one clock cycle for each nibble. -/
theorem fourBitStreamEmitsTheNibbleSum : Obligations.FourBitStreamEmitsTheNibbleSum := by
  intro s rs rw a b hw
  obtain ⟨s₁, hrun₁, hready₁, hmode₁, hparams₁, hem₁⟩ :=
    readyAt_of_cfg_idle true (raw4 (bitLine rs) (bitLine rw) a b) s
  obtain ⟨s₂, hrun₂, hready₂, hmode₂, hstart₂, hpend₂, hparams₂, hem₂⟩ :=
    hready₁.firstNibbleCycle (by rw [hparams₁]; omega) hmode₁
  obtain ⟨t, hrun₃, hready₃, hmode₃, hem₃⟩ :=
    hready₂.secondNibbleCycle (by rwa [hparams₂, hparams₁]) hmode₂
  have hrun : RunsTo 6 _ t := runsTo_add (runsTo_add hrun₁ hrun₂) hrun₃
  refine ⟨t, hrun, ?_, hmode₃, hready₃.phase⟩
  rw [hem₃, hem₂, hem₁, hparams₂, hparams₁, hstart₂, hpend₂, reassemble_eq_ofNat, lowNibble_toNat]
  cases s.params.pStart4 <;> rfl

end Sys2Proof.Machine
end

section
/-! PROOFS of the command classifier's statements (spec/43_command_classifier.md): the row that a classification
word matches, each category's selection and result, and Warning, which no word selects. -/

namespace Sys2Proof.Machine

/-! ### A row's mask and match as a range of words (R66, R68) -/

/-- Masking with `m` ones above `n` zeros keeps those bits of the number. -/
theorem and_ones_shiftLeft (x m n : Nat) :
    x &&& (2 ^ m - 1) <<< n = x / 2 ^ n % 2 ^ m * 2 ^ n := by
  rw [← Nat.shiftLeft_eq, ← Nat.shiftRight_eq_div_pow, ← Nat.and_two_pow_sub_one_eq_mod,
    Nat.shiftLeft_and_distrib]
  refine Nat.eq_of_testBit_eq fun j => ?_
  simp only [Nat.testBit_and, Nat.testBit_shiftLeft, Nat.testBit_shiftRight]
  by_cases h : n ≤ j <;> simp [h]

/-- The number of low bits that a category's row leaves free. -/
def freeBits : Instr → Nat
  | .clearDisplay _ => 1
  | .returnHome _ => 1
  | .entryModeSet _ => 2
  | .displayControl _ => 3
  | .displayShift _ => 4
  | .functionSet _ => 5
  | .setCGRAMAddress _ => 6
  | .setDDRAMAddress _ => 7
  | .readBusyFlagAndAddressCounter _ => 8
  | .memoryWrite _ => 8
  | .memoryRead _ => 8
  | .warning _ => 10

/-- A reachable category's mask is the classification word's bits above the free ones. -/
theorem maskBits_toNat {i : Instr} (hw : i.isWarning = false) :
    i.row.maskBits.toNat = (2 ^ (10 - freeBits i) - 1) <<< freeBits i := by
  cases i with
  | warning v => cases hw
  | _ v => rfl

/-- The words that match a reachable category's row are those from its match up, one for each value of the free
bits. -/
theorem matchesRow_iff_range {i : Instr} (hw : i.isWarning = false) (cw : CW) :
    cw.toNat &&& i.row.maskBits.toNat = i.row.matchBits.toNat ↔
      i.row.matchBits.toNat ≤ cw.toNat ∧
        cw.toNat < i.row.matchBits.toNat + 2 ^ freeBits i := by
  have hcw : cw.toNat < 1024 := cw.isLt
  rw [maskBits_toNat hw, and_ones_shiftLeft]
  cases i with
  | warning v => cases hw
  | _ v =>
    simp only [freeBits, Instr.row, BitVec.reduceToNat]
    omega

theorem packCW_toNat (rs rw : Bool) (v : Byte) :
    (packCW rs rw v).toNat = rs.toNat * 512 + rw.toNat * 256 + v.toNat := by
  rw [packCW, BitVec.toNat_append, BitVec.toNat_append, ← Nat.shiftLeft_add_eq_or_of_lt v.isLt,
    ← Nat.shiftLeft_add_eq_or_of_lt (BitVec.isLt _)]
  simp only [BitVec.toNat_ofBool, Nat.shiftLeft_eq]
  omega

/-- The words in a row's range are those of its control bits with a value that its category admits (R131,
R133). -/
theorem range_iff_wellFormed {i : Instr} (hw : i.isWarning = false) (rs rw : Bool) :
    (i.row.matchBits.toNat ≤ (packCW rs rw i.value).toNat ∧
      (packCW rs rw i.value).toNat < i.row.matchBits.toNat + 2 ^ freeBits i) ↔
    WellFormed i = true ∧ i.controlBits = (rs, rw) := by
  rw [packCW_toNat]
  have hv : i.value.toNat < 256 := i.value.isLt
  cases i with
  | warning v => cases hw
  | _ v =>
    simp only [Instr.value] at hv ⊢
    cases rs <;> cases rw <;>
      simp [Instr.row, freeBits, Instr.controlBits, WellFormed, valueIn_iff] <;> omega

/-! ### The row that a word matches (R66, R145) -/

/-- The word of a well-formed instruction's control bits and value decodes to it. -/
theorem decodeCW_of_wellFormed {i : Instr} (h : WellFormed i = true) (hw : i.isWarning = false) :
    decodeCW (packCW i.controlBits.1 i.controlBits.2 i.value) = i :=
  (decodeCW_packCW _ _ _).trans (selectPath_of_wellFormed h hw)

/-- The decoder answers the instruction whose control bits and range hold the word. -/
theorem decodeCW_eq_iff_wellFormed {i : Instr} (hw : i.isWarning = false) (rs rw : Bool) :
    decodeCW (packCW rs rw i.value) = i ↔ WellFormed i = true ∧ i.controlBits = (rs, rw) := by
  constructor
  · intro h
    obtain ⟨hwf, hbits, -⟩ := decodeCW_row i.value rs rw
    rw [h] at hwf hbits
    exact ⟨hwf, hbits⟩
  · rintro ⟨hwf, hbits⟩
    have h := decodeCW_of_wellFormed hwf hw
    rwa [hbits] at h

/-- The decoder answers a reachable instruction exactly where the word matches its row (R66). -/
theorem decodeCW_eq_iff_matchesRow {i : Instr} (hw : i.isWarning = false) {cw : CW}
    (hv : i.value = cwValue cw) :
    decodeCW cw = i ↔ cw.toNat &&& i.row.maskBits.toNat = i.row.matchBits.toNat := by
  have hcw : cw = packCW (cwRs cw) (cwRw cw) i.value := by rw [hv, packCW_of_parts]
  rw [matchesRow_iff_range hw, hcw, decodeCW_eq_iff_wellFormed hw, range_iff_wellFormed hw]

/-- As the 10-bit mask and match of a reachable category's row. -/
theorem decodeCW_eq_iff_and (i : Instr) (hw : i.isWarning = false) {cw : CW}
    (hv : i.value = cwValue cw) :
    decodeCW cw = i ↔ cw &&& i.row.maskBits.setWidth 10 = i.row.matchBits.setWidth 10 := by
  have fits : i.row.maskBits.toNat < 1024 ∧ i.row.matchBits.toNat < 1024 := by
    cases i with
    | warning v => cases hw
    | _ v => exact ⟨by simp [Instr.row], by simp [Instr.row]⟩
  rw [decodeCW_eq_iff_matchesRow hw hv, ← BitVec.toNat_inj, BitVec.toNat_and, BitVec.toNat_setWidth,
    BitVec.toNat_setWidth, Nat.mod_eq_of_lt fits.1, Nat.mod_eq_of_lt fits.2]

/-- No classification word has the Warning row's bit 10 (R68, R142). -/
theorem decodeCW_ne_warning (cw : CW) (v : Byte) : decodeCW cw ≠ .warning v := by
  intro h
  obtain ⟨-, -, hw⟩ := decodeCW_row (cwValue cw) (cwRs cw) (cwRw cw)
  rw [packCW_of_parts, h] at hw
  cases hw

/-- With the word's value in it, an instruction's row matches the word exactly where the decoder answers that
instruction (R66). -/
theorem rowSelects_iff {i : Instr} {cw : CW} (hv : i.value = cwValue cw) :
    i.rowSelects (0#1 ++ cw) = true ↔ decodeCW cw = i := by
  have hcw : (0#1 ++ cw : TableWord).toNat = cw.toNat := (BitVec.toNat_append _ _).trans (by simp)
  rw [Instr.rowSelects, beq_iff_eq, ← BitVec.toNat_inj, BitVec.toNat_and, hcw]
  cases hw : i.isWarning with
  | false => exact (decodeCW_eq_iff_matchesRow hw hv).symm
  | true =>
    cases i with
    | warning v =>
      have clear : cw.toNat &&& 1024 = 0 :=
        (Nat.and_two_pow cw.toNat 10).trans (by simp [Nat.testBit_lt_two_pow cw.isLt])
      simp [Instr.row, clear, decodeCW_ne_warning]
    | _ => cases hw

theorem opcodeMap_value (v : Byte) : ∀ mk ∈ opcodeMap, (mk v).value = v := by
  simp [opcodeMap, Instr.value]

/-- Every instruction but Warning is of one of the first eleven rows. -/
theorem mem_opcodeMap_take {i : Instr} (hw : i.isWarning = false) :
    ∃ mk ∈ opcodeMap.take 11, i = mk i.value := by
  cases i with
  | warning v => cases hw
  | _ v => simp [opcodeMap, Instr.value]

/-- Settles O4: a row matches exactly where the decoder answers its instruction, and the decoder answers no
Warning. -/
theorem everyWordSelectsExactlyOneCategory : Obligations.EveryWordSelectsExactlyOneCategory := by
  intro v rs rw
  obtain ⟨-, -, hv⟩ := packCW_parts rs rw v
  obtain ⟨-, -, hw⟩ := decodeCW_row v rs rw
  refine ⟨fun mk hmk => rowSelects_iff (by rw [opcodeMap_value v mk hmk, hv]), ?_,
    decodeCW_ne_warning _⟩
  simpa only [decodeCW_value] using mem_opcodeMap_take hw

/-! ### Each category's selection and result -/

/-- Settles O9: its row is the range [0, 2), and its meaning completes with the plain record. -/
theorem clearDisplayResult : Obligations.ClearDisplayResult :=
  ⟨rfl, fun cw => decodeCW_eq_iff_and (.clearDisplay (cwValue cw)) rfl rfl,
    fun v hlo hhi => decodeCW_of_wellFormed (i := .clearDisplay v) (valueIn_iff.2 ⟨hlo, hhi⟩) rfl,
    fun v => exec_eq_completed (.clearDisplay v)⟩

/-- Settles O10: its row is the range [2, 4), and its meaning completes with the plain record. -/
theorem returnHomeResult : Obligations.ReturnHomeResult :=
  ⟨rfl, fun cw => decodeCW_eq_iff_and (.returnHome (cwValue cw)) rfl rfl,
    fun v hlo hhi => decodeCW_of_wellFormed (i := .returnHome v) (valueIn_iff.2 ⟨hlo, hhi⟩) rfl,
    fun v => exec_eq_completed (.returnHome v)⟩

/-- Settles O11: its row is the range [4, 8), and bit 0 is the direction as a number. -/
theorem entryModeSetResult : Obligations.EntryModeSetResult :=
  ⟨rfl, fun cw => decodeCW_eq_iff_and (.entryModeSet (cwValue cw)) rfl rfl,
    fun v hlo hhi => decodeCW_of_wellFormed (i := .entryModeSet v) (valueIn_iff.2 ⟨hlo, hhi⟩) rfl,
    fun v s => by rw [← entryDirection_eq_decide]; exact exec_eq_completed _ s⟩

/-- Settles O12: its row is the range [8, 16), and its labels are fixed by R147 item 3. -/
theorem displayControlResult : Obligations.DisplayControlResult :=
  ⟨rfl, fun cw => decodeCW_eq_iff_and (.displayControl (cwValue cw)) rfl rfl,
    fun v hlo hhi => decodeCW_of_wellFormed (i := .displayControl v) (valueIn_iff.2 ⟨hlo, hhi⟩) rfl,
    fun v => exec_eq_completed (.displayControl v),
    fun _ hf => hf.displayControlPlaceholder⟩

/-- Settles O13: its row is the range [16, 32), and its labels are fixed by R147 item 3. -/
theorem displayShiftResult : Obligations.DisplayShiftResult :=
  ⟨rfl, fun cw => decodeCW_eq_iff_and (.displayShift (cwValue cw)) rfl rfl,
    fun v hlo hhi => decodeCW_of_wellFormed (i := .displayShift v) (valueIn_iff.2 ⟨hlo, hhi⟩) rfl,
    fun v => exec_eq_completed (.displayShift v),
    fun _ hf => hf.displayShiftPlaceholder⟩

/-- Settles O14: its row is the range [32, 64), and bit 4 selects the mode it writes and the width that
R147 item 5 names. -/
theorem functionSetResult : Obligations.FunctionSetResult :=
  ⟨rfl, fun cw => decodeCW_eq_iff_and (.functionSet (cwValue cw)) rfl rfl,
    fun v hlo hhi => decodeCW_of_wellFormed (i := .functionSet v) (valueIn_iff.2 ⟨hlo, hhi⟩) rfl,
    fun v => exec_eq_completed (.functionSet v),
    fun _ hf v => hf.functionSetWidth v (v.getLsbD 4)⟩

/-- Settles O15: its row is the range [64, 128), and its record carries the masked value. -/
theorem setCGRAMAddressResult : Obligations.SetCGRAMAddressResult :=
  ⟨rfl, fun cw => decodeCW_eq_iff_and (.setCGRAMAddress (cwValue cw)) rfl rfl,
    fun v hlo hhi => decodeCW_of_wellFormed (i := .setCGRAMAddress v) (valueIn_iff.2 ⟨hlo, hhi⟩) rfl,
    fun v => exec_eq_completed (.setCGRAMAddress v)⟩

/-- Settles O16: its row is the range [128, 256), and its record carries the masked value. -/
theorem setDDRAMAddressResult : Obligations.SetDDRAMAddressResult :=
  ⟨rfl, fun cw => decodeCW_eq_iff_and (.setDDRAMAddress (cwValue cw)) rfl rfl,
    fun v hlo hhi => decodeCW_of_wellFormed (i := .setDDRAMAddress v) (valueIn_iff.2 ⟨hlo, hhi⟩) rfl,
    fun v => exec_eq_completed (.setDDRAMAddress v)⟩

/-- Settles O17: its row is fixed by the control bits alone, and its labels by R147 item 2. -/
theorem readBusyFlagAndAddressCounterResult : Obligations.ReadBusyFlagAndAddressCounterResult :=
  ⟨rfl, fun cw => decodeCW_eq_iff_and (.readBusyFlagAndAddressCounter (cwValue cw)) rfl rfl,
    decodeCW_packCW _ _,
    fun v => exec_eq_completed (.readBusyFlagAndAddressCounter v),
    fun _ hf => hf.busyFlagFixed⟩

/-- Settles O18: its row is fixed by the control bits alone, and its labels by R147 item 3. -/
theorem memoryReadResult : Obligations.MemoryReadResult :=
  ⟨rfl, fun cw => decodeCW_eq_iff_and (.memoryRead (cwValue cw)) rfl rfl,
    decodeCW_packCW _ _,
    fun v => exec_eq_completed (.memoryRead v),
    fun _ hf => hf.memoryReadPlaceholder⟩

/-- Settles O19: its row is fixed by the control bits alone, and its labels show the byte by R147 item 7. -/
theorem memoryWriteResult : Obligations.MemoryWriteResult :=
  ⟨rfl, fun cw => decodeCW_eq_iff_and (.memoryWrite (cwValue cw)) rfl rfl,
    decodeCW_packCW _ _,
    fun v => exec_eq_completed (.memoryWrite v),
    fun _ hf v => ⟨hf.memoryWriteHex v, hf.memoryWriteChar v⟩⟩

/-! ### The meanings together -/

/-- Settles O21: the decoded instruction's completion writes the classifier's record and mode. -/
theorem meaningsImplementTheClassifier : Obligations.MeaningsImplementTheClassifier := by
  intro v rs rw s
  rw [exec_eq_completed, completed, recordOf_decodeCW, modeAfter_decodeCW]

theorem modeAfter_of_ne_functionSet {i : Instr} (h : ∀ v, i ≠ .functionSet v) (m : Mode) :
    modeAfter i m = m := by
  cases i with
  | functionSet v => exact absurd rfl (h v)
  | _ => rfl

/-- Settles O22: every meaning is a completion, whose frame is `completed`'s. -/
theorem everyMeaningCompletesWithItsFrame : Obligations.EveryMeaningCompletesWithItsFrame := fun i s =>
  ⟨completed i s, exec_eq_completed i s, rfl, rfl, rfl, rfl, rfl, rfl, rfl, rfl, rfl, rfl,
    recordOf_value i, fun h => modeAfter_of_ne_functionSet h s.mode⟩

/-! ### Warning, which no run from reset emits (R142) -/

/-- Every run from a reset emits and shows the classifier's records alone. -/
theorem outputsClassified_of_runsTo_applyReset {cfg4bit : Bool} {s t : State} {k : Nat}
    (h : RunsTo k (applyReset cfg4bit s) t) : OutputsClassified t :=
  runsTo_keeps OutputsClassified everyStepKeepsOutputsClassified.1
    (outputsClassified_applyReset cfg4bit s) h

/-- A record of the classifier has a code of at most 10, and Warning's is 11. -/
theorem Classified.code_ne {r : Record} (h : Classified r) : r.cat.code ≠ 11 := by
  obtain ⟨v, rs, rw, rfl⟩ := h
  intro hcode
  have hle := classify_code_le v rs rw
  rw [hcode] at hle
  exact absurd hle (by decide)

theorem Classified.cat_ne_warning {r : Record} (h : Classified r) : r.cat ≠ .warning := fun hw =>
  h.code_ne (by rw [hw]; rfl)

/-- The port shows the code of a record of the classifier, or 0 where it is idle. -/
theorem OutputsClassified.aCat_ne {s : State} (h : OutputsClassified s) : s.out.aCat ≠ 11 := by
  obtain hidle | ⟨a, ha, hout⟩ := h.port
  · rw [hidle]
    decide
  · rw [hout]
    exact ha.code_ne

/-- Settles O20: a run after a reset emits and shows the classifier's records alone, none of which is
Warning's. -/
theorem warningResult : Obligations.WarningResult := by
  refine ⟨rfl, fun v => exec_eq_completed (.warning v), decodeCW_ne_warning, fun f s t k h => ?_⟩
  have ht := outputsClassified_of_runsTo_applyReset h
  exact ⟨fun a ha => (ht.emitted a ha).cat_ne_warning, ht.aCat_ne⟩

end Sys2Proof.Machine
end

section
/-! PROOFS of the refusals (spec/60_exceptions.md): the clock, the index order, RS and RW at a completion sample,
and the cycles that break none of these premises. -/

namespace Sys2Proof.Machine

/-! ### The refusals before the edge test (R164, R166) -/

theorem LineState.level_of_ne_indet {l : LineState} (h : l ≠ .indet) : ∃ b, l.level = some b := by
  cases l with
  | low => exact ⟨false, rfl⟩
  | high => exact ⟨true, rfl⟩
  | indet => exact absurd rfl h

theorem LineState.eq_low_of_level {l : LineState} (h : l.level = some false) : l = .low := by
  cases l with
  | low => rfl
  | high | indet => cases h

/-- A cycle without reset that offers a sample takes the sample's step. -/
theorem step_sample {s : State} {c : BlockCycle} {rest : List BlockCycle} (hi : s.inputs = c :: rest)
    (hr : c.rst = false) (hv : c.sValid = true) :
    step s = sampleStep (portSample c) { s with inputs := rest } := by
  simp [step_cons hi, blockCycle, hr, hv]

theorem sampleStep_clk_indet {S : Sample} (s : State) (h : S.clk = .indet) :
    sampleStep S s = .refused .clockIndeterminate := by
  simp [sampleStep, h, LineState.level]

theorem sampleStep_not_admitted {S : Sample} {s : State} {b : Bool} (hb : S.clk.level = some b)
    (hadm : ¬indexAdmitted s S.idx = true) : sampleStep S s = .refused .indexOrder := by
  simp only [sampleStep, hb, if_neg hadm]

/-- Settles O43: the clock is checked first, before the index and the phase. -/
theorem indeterminateClockIsRefused : Obligations.IndeterminateClockIsRefused :=
  fun _s _c _rest hi hr hv hx => (step_sample hi hr hv).trans (sampleStep_clk_indet _ hx)

/-- Settles O44: either cause contradicts one half of `indexAdmitted_iff`. -/
theorem indexOutOfOrderIsRefused : Obligations.IndexOutOfOrderIsRefused := by
  intro s c rest hi hr hv hclk hcause
  obtain ⟨b, hb⟩ := LineState.level_of_ne_indet hclk
  refine (step_sample hi hr hv).trans (sampleStep_not_admitted hb fun hadm => ?_)
  obtain ⟨hlast, hfits⟩ := (indexAdmitted_iff _ _).1 hadm
  obtain ⟨n, hn, hle⟩ | hwide := hcause
  · exact absurd (hlast n hn) (Nat.not_lt.2 hle)
  · exact absurd hfits (Nat.not_lt.2 hwide)

/-! ### RS and RW (R165) -/

theorem IsCompletion.clk_low {s : State} {S : Sample} {b : Bool} (h : IsCompletion s S)
    (hb : S.clk.level = some b) : b = false := by
  obtain ⟨-, -, hlow, -⟩ := h
  rw [hlow] at hb
  cases hb
  rfl

/-- The phase action of a completion sample is its completion. -/
theorem IsCompletion.phaseAction_eq {s : State} {S : Sample} (h : IsCompletion s S) :
    ∃ v u, phaseAction S false s = completeSample S v u := by
  obtain ⟨hp, he, -, hm | hm⟩ := h
  · exact ⟨_, _, (phaseAction_fall S hp he).trans (fallingAction_eightBit S hm)⟩
  · exact ⟨_, _, (phaseAction_fall S hp he).trans (fallingAction_secondNibble S hm)⟩

/-- The phase action of any other sample answers one next state, whatever RS and RW are. -/
theorem phaseAction_of_not_isCompletion {s : State} {S : Sample} {b : Bool}
    (hb : S.clk.level = some b) (hn : ¬IsCompletion s S) :
    ∃ u, ∀ x y, phaseAction { S with rs := x, rw := y } b s = .next u := by
  cases hcons : consumes s.phase (edge s.prevClk b) with
  | false => exact ⟨s, fun _ _ => phaseAction_of_not_consumes hcons⟩
  | true =>
    obtain ⟨hp, hedge⟩ | ⟨hp, hedge⟩ := (consumes_iff _ _).1 hcons
    · obtain ⟨he, rfl⟩ := (edge_fall_iff _ _).1 hedge
      have hlow := LineState.eq_low_of_level hb
      cases hm : s.mode with
      | eightBit => exact absurd ⟨hp, he, hlow, .inl hm⟩ hn
      | fourBitFirstNibble =>
        exact ⟨firstNibbleAction S s,
          fun _ _ => (phaseAction_fall _ hp he).trans (fallingAction_firstNibble _ hm)⟩
      | fourBitSecondNibble => exact absurd ⟨hp, he, hlow, .inr hm⟩ hn
      | ignored =>
        exact ⟨ignoredAction s,
          fun _ _ => (phaseAction_fall _ hp he).trans (fallingAction_ignored _ hm)⟩
    · obtain ⟨he, rfl⟩ := (edge_rise_iff _ _).1 hedge
      exact ⟨resumeWaitFall s, fun _ _ => phaseAction_rise _ hp he⟩

theorem step_completion_indet {s : State} {S : Sample} {b : Bool} {rest : List BlockCycle}
    (h : Offers s S b rest) (hcomp : IsCompletion s S) (hx : S.rs = .indet ∨ S.rw = .indet) :
    step s = .refused .ctrlIndeterminate := by
  obtain rfl := hcomp.clk_low h.clk_level
  obtain ⟨v, u, hphase⟩ := IsCompletion.phaseAction_eq (s := { s with inputs := rest }) hcomp
  rw [step_offers h, hphase, completeSample_indet v u hx]
  rfl

/-- Settles O45: the completion is refused, and no other phase action reads RS or RW. -/
theorem controlLinesAreReadAtCompletionOnly : Obligations.ControlLinesAreReadAtCompletionOnly := by
  refine ⟨fun s S c rest => step_completion_indet, fun s S x y hn => ?_⟩
  cases hb : S.clk.level with
  | none => simp only [sampleStep, hb]
  | some b =>
    obtain ⟨u, hu⟩ := phaseAction_of_not_isCompletion hb hn
    simp only [sampleStep, hb, hu x y, show phaseAction S b s = .next u from hu S.rs S.rw]

/-! ### The cycles that break no premise (R160, R163, R193) -/

/-- The block cycle breaks no premise of R164 to R166 in the state: the duties of R193. -/
def LegalCycle (s : State) (c : BlockCycle) : Prop :=
  c.rst = true ∨ c.sValid = false ∨
    ((portSample c).clk ≠ .indet ∧ (∀ n, s.lastIdx = some n → n < c.sIdx) ∧
      c.sIdx < 2 ^ s.params.wIdx ∧
      (IsCompletion s (portSample c) → (portSample c).rs ≠ .indet ∧ (portSample c).rw ≠ .indet))

/-- A phase action answers a next state unless it completes with RS or RW indeterminate. -/
theorem phaseAction_answers {s : State} {S : Sample} {b : Bool} (hb : S.clk.level = some b)
    (hknown : IsCompletion s S → S.rs ≠ .indet ∧ S.rw ≠ .indet) :
    ∃ u, phaseAction S b s = .next u := by
  by_cases hcomp : IsCompletion s S
  · obtain ⟨hrs, hrw⟩ := hknown hcomp
    obtain ⟨rs, hrs⟩ := LineState.level_of_ne_indet hrs
    obtain ⟨rw, hrw⟩ := LineState.level_of_ne_indet hrw
    obtain rfl := hcomp.clk_low hb
    obtain ⟨v, u, hphase⟩ := hcomp.phaseAction_eq
    exact ⟨_, hphase.trans (completeSample_known v u hrs hrw)⟩
  · obtain ⟨u, hu⟩ := phaseAction_of_not_isCompletion hb hcomp
    exact ⟨u, hu S.rs S.rw⟩

theorem step_of_legalCycle {s : State} {c : BlockCycle} {rest : List BlockCycle}
    (hi : s.inputs = c :: rest) (h : LegalCycle s c) : ∃ t, step s = .next t := by
  cases hr : c.rst with
  | true => exact ⟨_, step_reset hi hr⟩
  | false =>
    cases hv : c.sValid with
    | false => exact ⟨_, step_gap hi hr hv⟩
    | true =>
      obtain h | h | ⟨hclk, hlast, hfits, hknown⟩ := h
      · exact absurd h (by simp [hr])
      · exact absurd h (by simp [hv])
      · obtain ⟨b, hb⟩ := LineState.level_of_ne_indet hclk
        obtain ⟨u, hu⟩ := phaseAction_answers (s := { s with inputs := rest }) hb hknown
        exact ⟨_, by rw [step_offers ⟨c, hi, hr, hv, rfl, hb, hlast, hfits⟩, hu]; rfl⟩

/-- A cycle that breaks a premise is refused, by the first premise it breaks (R164, R166, then R165). -/
theorem step_of_not_legalCycle {s : State} {c : BlockCycle} {rest : List BlockCycle}
    (hi : s.inputs = c :: rest) (h : ¬LegalCycle s c) : ∃ e, step s = .refused e := by
  simp only [LegalCycle, not_or, Bool.not_eq_true, Bool.not_eq_false] at h
  obtain ⟨hr, hv, hbroken⟩ := h
  by_cases hclk : (portSample c).clk = .indet
  · exact ⟨_, indeterminateClockIsRefused s c rest hi hr hv hclk⟩
  obtain ⟨b, hb⟩ := LineState.level_of_ne_indet hclk
  by_cases hadm : indexAdmitted s c.sIdx = true
  · obtain ⟨hlast, hfits⟩ := (indexAdmitted_iff _ _).1 hadm
    obtain ⟨hcomp, hx⟩ :=
      Classical.not_imp.1 fun hknown => hbroken ⟨hclk, hlast, hfits, hknown⟩
    exact ⟨_, step_completion_indet ⟨c, hi, hr, hv, rfl, hb, hlast, hfits⟩ hcomp
      (or_iff_not_and_not.2 hx)⟩
  · exact ⟨_, (step_sample hi hr hv).trans (sampleStep_not_admitted hb hadm)⟩

/-- Settles O46: a legal cycle answers a next state, and any other is refused. -/
theorem stepAnswersNextExactlyOnLegalCycles : Obligations.StepAnswersNextExactlyOnLegalCycles := by
  intro s c rest hi
  by_cases h : LegalCycle s c
  · obtain ⟨t, ht⟩ := step_of_legalCycle hi h
    exact ⟨iff_of_true ⟨t, ht⟩ h, fun e he => nomatch ht.symm.trans he⟩
  · obtain ⟨r, hr⟩ := step_of_not_legalCycle hi h
    exact ⟨iff_of_false (fun ⟨t, ht⟩ => nomatch hr.symm.trans ht) h,
      fun e he => nomatch hr.symm.trans he⟩

end Sys2Proof.Machine
end

section
/-! PROOFS of the reset and the ordering rules (spec/70_reset_and_hazards.md): the reset cycle, runs after a reset,
the bus width, the output latency, and the streams that run to their end. -/

namespace Sys2Proof.Machine

/-! ### The reset cycle and the end of the stream (R181, R194) -/

/-- Settles O32: the step is the reset actions, whatever the sample port holds. -/
theorem resetCycleSetsTheStartState : Obligations.ResetCycleSetsTheStartState :=
  fun _s _c _rest hi hr => ⟨_, step_reset hi hr, rfl, rfl, rfl, rfl, rfl, rfl, rfl, rfl⟩

/-- Settles O56: with a block cycle left the step never faults (R160). -/
theorem runEndsWithItsStream : Obligations.RunEndsWithItsStream := by
  intro s e
  cases hi : s.inputs with
  | nil => simp [step, hi]
  | cons c rest =>
    obtain ⟨-, hnofault⟩ := stepAnswersNextExactlyOnLegalCycles s c rest hi
    exact iff_of_false (hnofault e) (nomatch ·.1)

/-! ### Runs after a reset (R184) -/

/-- The reset actions read the parameters and the inputs alone. -/
theorem applyReset_congr {s t : State} (f : Bool) (hparams : s.params = t.params)
    (hinputs : s.inputs = t.inputs) : applyReset f s = applyReset f t := by
  simp only [applyReset, hparams, hinputs]

/-- No rule reads `pend`, `t_start` and `t_rec` after a reset before it writes them (R113). -/
theorem agreeWhereRead_applyReset (f : Bool) (s : State) (p q : Nibble) (m n : Nat) (r r' : Record) :
    AgreeWhereRead { applyReset f s with pend := p, tStart := m, tRec := r }
      { applyReset f s with pend := q, tStart := n, tRec := r' } := by
  have hmode : configuredMode f ≠ .fourBitSecondNibble := by cases f <;> decide
  exact
    { params := rfl, mode := rfl, phase := rfl, prevClk := rfl, out := rfl, outPipe := rfl
      emitted := rfl, lastIdx := rfl, inputs := rfl
      pend := fun h => absurd h hmode
      tStart := fun h => h.elim (absurd · hmode) nofun
      tRec := nofun }

/-- A run from a state that agrees runs as far, to a state that agrees. -/
theorem AgreeWhereRead.runsTo {k : Nat} {s t u : State} (h : AgreeWhereRead s t)
    (hu : RunsTo k s u) : ∃ w, RunsTo k t w ∧ AgreeWhereRead u w := by
  unfold RunsTo at hu ⊢
  obtain ⟨u', w, hs, ht, hagree⟩ | ⟨e, hs, -⟩ | ⟨e, hs, -⟩ :=
    (unreadFieldsAreNeverObserved k s t h).cases
  · obtain rfl : u = u' := by
      rw [hu] at hs
      injection hs
    exact ⟨w, ht, hagree⟩
  · exact nomatch hu.symm.trans hs
  · exact nomatch hu.symm.trans hs

/-- Settles O39: the two resets leave one state but for the fields no rule reads before it writes them. -/
theorem runsAfterResetAreIdentical : Obligations.RunsAfterResetAreIdentical := by
  intro cfg4bit s t p q m n r r' k u hparams hinputs hu
  rw [applyReset_congr cfg4bit hparams hinputs] at hu
  obtain ⟨w, hw, hagree⟩ := (agreeWhereRead_applyReset cfg4bit t p q m n r r').runsTo hu
  exact ⟨w, hw, hagree.emitted.symm, hagree.out.symm, hagree.mode.symm, hagree.phase.symm⟩

/-! ### The bus width (R183) -/

/-- Without reset a block cycle does not read `cfg_4bit` (R29). -/
theorem blockCycle_cfg4bit {c : BlockCycle} (b : Bool) (s : State) (hr : c.rst = false) :
    blockCycle { c with cfg4bit := b } s = blockCycle c s := by
  simp only [blockCycle, hr]
  rfl

/-- Only FunctionSet writes a mode other than the one before (R149). -/
theorem recordOf_cat_of_modeAfter_ne {i : Instr} {m : Mode} (h : modeAfter i m ≠ m) :
    (recordOf i).cat = .functionSet := by
  by_contra hcat
  refine h (modeAfter_of_ne_functionSet (fun v hi => hcat ?_) m)
  rw [hi]
  rfl

/-- A phase action that changes the bus width is the completion of a FunctionSet (R114, R139). -/
theorem PhaseCase.functionSet_of_isFourBit_ne {S : Sample} {c : Bool} {s u : State}
    (h : PhaseCase S c s u) (hne : u.mode.isFourBit ≠ s.mode.isFourBit) :
    u.phase = .waitRiseEmit ∧ u.tRec.cat = .functionSet := by
  cases h with
  | eightBit => exact ⟨rfl, recordOf_cat_of_modeAfter_ne (hne <| congrArg _ ·)⟩
  | firstNibble _ _ _ hm | secondNibble _ _ _ _ _ hm =>
    exact absurd (by simp [hm, modeAfter_reassemble, Mode.isFourBit]) hne
  | ignored | rise | skip => exact absurd rfl hne

/-- Settles O48: `cfg_4bit` is an input of the reset actions alone, and only FunctionSet's completion leaves the
bus width. -/
theorem busWidthChangesOnlyByResetAndFunctionSet :
    Obligations.BusWidthChangesOnlyByResetAndFunctionSet := by
  refine ⟨fun s c rest b hr => blockCycle_cfg4bit b _ hr, fun s t hn h _ hne => ?_⟩
  obtain ⟨-, hcase⟩ := step_noReset hn h
  cases hcase with
  | idle rest => exact absurd rfl hne
  | sample c rest b u hi hv hclk hlast hfits hu => exact hu.functionSet_of_isFourBit_ne hne

/-! ### The output latency (R192) -/

theorem PhaseCase.outPipe_eq {S : Sample} {c : Bool} {s u : State} (h : PhaseCase S c s u) :
    u.outPipe = s.outPipe := by
  cases h <;> rfl

/-- A step without reset is a cycle of the output side on what it emits. -/
theorem StepCase.output {s t : State} (h : StepCase s t) :
    ∃ e, t.emitted = s.emitted ++ e.toList ∧
      t.out = drivePort ((s.outPipe ++ [e]).headD none) ∧ t.outPipe = (s.outPipe ++ [e]).tail := by
  cases h with
  | idle rest => exact ⟨none, rfl, rfl, rfl⟩
  | sample c rest b u hi hv hclk hlast hfits hu =>
    exact ⟨emission c.sIdx b s, by simp [hu.emitted_eq], by simp [hu.outPipe_eq],
      by simp [hu.outPipe_eq]⟩

/-- After `n` further cycles of the output side the port shows `e`: it stands at place `n` of the port followed
by the latency. -/
def DueIn : Nat → Option Annotation → State → Prop
  | 0, e, s => s.out = drivePort e
  | n + 1, e, s => s.outPipe[n]? = some e

/-- A cycle of the output side moves place `n` of the latency and what joins it to place `n` of the port and the
latency after it. -/
theorem dueIn_of_getElem? {n : Nat} {e : Option Annotation} {pipe : List (Option Annotation)}
    {t : State} (he : pipe[n]? = some e) (hout : t.out = drivePort (pipe.headD none))
    (hpipe : t.outPipe = pipe.tail) : DueIn n e t := by
  cases n with
  | zero =>
    show t.out = drivePort e
    rw [hout, List.headD_eq_head?_getD, List.head?_eq_getElem?, he]
    rfl
  | succ n =>
    show t.outPipe[n]? = some e
    rw [hpipe, List.getElem?_tail, he]

theorem DueIn.step {n : Nat} {e : Option Annotation} {s t : State} (h : DueIn (n + 1) e s)
    (hcase : StepCase s t) : DueIn n e t := by
  obtain ⟨e', -, hout, hpipe⟩ := hcase.output
  obtain ⟨hlt, -⟩ := List.getElem?_eq_some_iff.1 h
  exact dueIn_of_getElem? ((List.getElem?_append_left hlt).trans h) hout hpipe

theorem DueIn.run {n : Nat} {e : Option Annotation} {s u : State} (h : DueIn n e s)
    (hn : NoResetIn n s) (hu : RunsTo n s u) : u.out = drivePort e := by
  induction n generalizing s with
  | zero => exact runsTo_zero.1 hu ▸ h
  | succ n ih =>
    obtain ⟨t, ht, hu⟩ := runsTo_succ.1 hu
    obtain ⟨hn, hcase⟩ := step_noReset hn ht
    exact ih (h.step hcase) hn hu

/-- Settles O41: what a step emits joins the latency at its end, place `OUT_LAT`, and every further cycle moves it
one place towards the port. -/
theorem recordReachesThePortAfterOutLat : Obligations.RecordReachesThePortAfterOutLat := by
  intro s t u e hlen hn ht hem hnt hu
  obtain ⟨-, hcase⟩ := step_noReset hn ht
  obtain ⟨e', hem', hout, hpipe⟩ := hcase.output
  have hlist : e.toList = e'.toList := List.append_cancel_left (hem.symm.trans hem')
  obtain rfl : e = e' := by simpa using congrArg List.head? hlist
  have hplace : (s.outPipe ++ [e])[s.params.outLat]? = some e := by simp [← hlen]
  exact (dueIn_of_getElem? hplace hout hpipe).run hnt hu

/-! ### The duties of the sample source along a stream (R193) -/

theorem LineState.eq_low_iff {l : LineState} {b : Bool} (h : l.level = some b) :
    l = .low ↔ b = false := by
  refine ⟨?_, ?_⟩
  · rintro rfl
    exact (Option.some.inj h).symm
  · rintro rfl
    exact LineState.eq_low_of_level h

/-- A decoded instruction writes the mode where its word is in FunctionSet's row (R139, R149). -/
theorem modeAfter_decodeCW_eq_ite (v : Byte) (rs rw : Bool) (m : Mode) :
    modeAfter (decodeCW (packCW rs rw v)) m =
      if rs = false ∧ rw = false ∧ 32 ≤ v.toNat ∧ v.toNat < 64 then functionMode v else m := by
  have hrow : decodeCW (packCW rs rw v) = .functionSet v ↔
      rs = false ∧ rw = false ∧ 32 ≤ v.toNat ∧ v.toNat < 64 := by
    refine (decodeCW_eq_iff_wellFormed (i := .functionSet v) rfl rs rw).trans ?_
    rw [WellFormed, valueIn_iff, Instr.controlBits, Prod.mk.injEq]
    tauto
  split_ifs with h
  · rw [hrow.2 h]
    rfl
  · refine modeAfter_of_ne_functionSet (fun w hw => h (hrow.1 ?_)) m
    have hval : (Instr.functionSet w).value = v := hw ▸ decodeCW_value v rs rw
    rw [hw, ← hval]
    rfl

/-- A completion in EightBit leaves the mode that the sample source follows (R101, R139). -/
theorem modeAfter_eightBit {S : Sample} {rs rw : Bool} (hrs : S.rs.level = some rs)
    (hrw : S.rw.level = some rw) :
    modeAfter (decodeCW (packCW rs rw (sampleToByte S))) .eightBit =
      (modeAndPhaseAfterFall .eightBit S).1 := by
  simp only [modeAfter_decodeCW_eq_ite, modeAndPhaseAfterFall, LineState.eq_low_iff hrs,
    LineState.eq_low_iff hrw]

/-! `Followed.next`, an equation per kind of edge (R94). -/

theorem Followed.next_fall {f : Followed} (S : Sample) (hp : f.phase = .waitFall)
    (he : f.prevClk = some true) :
    f.next S false =
      { mode := (modeAndPhaseAfterFall f.mode S).1, phase := (modeAndPhaseAfterFall f.mode S).2
        prevClk := some false, lastIdx := some S.idx } := by
  simp [Followed.next, hp, he, edge]

theorem Followed.next_rise {f : Followed} (S : Sample) (hp : f.phase ≠ .waitFall)
    (he : f.prevClk = some false) :
    f.next S true =
      { mode := f.mode, phase := .waitFall, prevClk := some true, lastIdx := some S.idx } := by
  simp [Followed.next, hp, he, edge]

theorem Followed.next_skip {f : Followed} {b : Bool} (S : Sample)
    (h : consumes f.phase (edge f.prevClk b) = false) :
    f.next S b = { f with prevClk := some b, lastIdx := some S.idx } := by
  have hn := Bool.eq_false_iff.1 h
  rw [Ne, consumes_iff, not_or] at hn
  simp only [Followed.next, if_neg hn.1, if_neg hn.2]

/-- An admitted sample leaves the mode and the phase that the sample source follows. -/
theorem PhaseCase.followed_eq {S : Sample} {b : Bool} {s u : State} (h : PhaseCase S b s u)
    (e : Option Annotation) : (finishSample S.idx b e u).followed = s.followed.next S b := by
  cases h with
  | eightBit rs rw hp he hc hm hrs hrw =>
    rw [hc, Followed.next_fall S hp he]
    simp [State.followed, hm, modeAfter_eightBit hrs hrw, modeAndPhaseAfterFall]
  | secondNibble rs rw hp he hc hm =>
    rw [hc, Followed.next_fall S hp he]
    simp [State.followed, hm, modeAfter_reassemble, modeAndPhaseAfterFall]
  | firstNibble hp he hc hm | ignored hp he hc hm =>
    rw [hc, Followed.next_fall S hp he]
    simp [State.followed, hm, modeAndPhaseAfterFall]
  | rise hp he hc =>
    rw [hc, Followed.next_rise S hp he]
    rfl
  | skip hskip =>
    rw [Followed.next_skip S hskip]
    rfl

theorem step_offers_followed {s t : State} {S : Sample} {b : Bool} {rest : List BlockCycle}
    (h : Offers s S b rest) (ht : step s = .next t) : t.followed = s.followed.next S b := by
  obtain ⟨u, hu, rfl⟩ := step_offers_next h ht
  exact (phaseAction_next hu).followed_eq _

/-! `SourceMeetsDuty`, an equation per kind of block cycle. -/

section Duty
variable {w : Nat} {f : Followed} {c : BlockCycle} {rest : List BlockCycle}

theorem sourceMeetsDuty_reset (hr : c.rst = true) :
    SourceMeetsDuty w f (c :: rest) ↔ SourceMeetsDuty w (Followed.start c.cfg4bit) rest := by
  simp [SourceMeetsDuty, hr]

theorem sourceMeetsDuty_gap (hr : c.rst = false) (hv : c.sValid = false) :
    SourceMeetsDuty w f (c :: rest) ↔ SourceMeetsDuty w f rest := by
  simp [SourceMeetsDuty, hr, hv]

theorem not_sourceMeetsDuty_clk_indet (hr : c.rst = false) (hv : c.sValid = true)
    (hx : (portSample c).clk = .indet) : ¬SourceMeetsDuty w f (c :: rest) := by
  simp [SourceMeetsDuty, hr, hv, hx, LineState.level]

theorem sourceMeetsDuty_sample {b : Bool} (hr : c.rst = false) (hv : c.sValid = true)
    (hb : (portSample c).clk.level = some b) :
    SourceMeetsDuty w f (c :: rest) ↔
      (∀ n, f.lastIdx = some n → n < c.sIdx) ∧ c.sIdx < 2 ^ w ∧
        (CompletesAt f.mode f.phase f.prevClk (portSample c) →
          (portSample c).rs ≠ .indet ∧ (portSample c).rw ≠ .indet) ∧
        SourceMeetsDuty w (f.next (portSample c) b) rest := by
  simp [SourceMeetsDuty, hr, hv, hb]

end Duty

/-- A source that meets its duties drives a legal cycle next. -/
theorem legalCycle_of_sourceMeetsDuty {s : State} {c : BlockCycle} {rest : List BlockCycle}
    (h : SourceMeetsDuty s.params.wIdx s.followed (c :: rest)) : LegalCycle s c := by
  cases hr : c.rst with
  | true => exact .inl hr
  | false =>
    cases hv : c.sValid with
    | false => exact .inr (.inl hv)
    | true =>
      have hclk : (portSample c).clk ≠ .indet := fun hx => not_sourceMeetsDuty_clk_indet hr hv hx h
      obtain ⟨b, hb⟩ := LineState.level_of_ne_indet hclk
      obtain ⟨hlast, hfits, hknown, -⟩ := (sourceMeetsDuty_sample hr hv hb).1 h
      exact .inr (.inr ⟨hclk, hlast, hfits, hknown⟩)

/-- Over a step the duties that are left are those of the state it leaves. -/
theorem sourceMeetsDuty_step {s t : State} {c : BlockCycle} {rest : List BlockCycle}
    (hi : s.inputs = c :: rest) (hlegal : LegalCycle s c) (ht : step s = .next t) :
    SourceMeetsDuty s.params.wIdx s.followed (c :: rest) ↔
      SourceMeetsDuty t.params.wIdx t.followed rest := by
  rw [step_params ht]
  obtain ⟨hr, rfl⟩ | ⟨hr, hv, rfl⟩ | ⟨hr, hv, b, hoff⟩ := step_cases_of_cycle hi ht
  · exact sourceMeetsDuty_reset hr
  · exact sourceMeetsDuty_gap hr hv
  · obtain h | h | ⟨-, hlast, hfits, hknown⟩ := hlegal
    · exact absurd h (by simp [hr])
    · exact absurd h (by simp [hv])
    · rw [sourceMeetsDuty_sample hr hv hoff.clk_level, step_offers_followed hoff ht]
      exact ⟨fun ⟨_, _, _, hrest⟩ => hrest, fun hrest => ⟨hlast, hfits, hknown, hrest⟩⟩

/-! ### Streams that run to their end (R193) -/

theorem runsOut_step {s t u : State} (h : step s = .next u) : RunsOut s t ↔ RunsOut u t := by
  refine ⟨fun hs => ?_, runsOut_of_step h⟩
  obtain ⟨c, hi⟩ := step_inputs h
  unfold RunsOut at hs
  rw [hi] at hs
  obtain ⟨v, hv, hrun⟩ := runsTo_succ.1 hs
  obtain rfl : u = v := by
    rw [h] at hv
    injection hv
  exact hrun

/-- A stream whose next cycle is refused does not run out. -/
theorem not_runsOut_of_refused {s t : State} {c : BlockCycle} {rest : List BlockCycle} {e : Refusal}
    (hi : s.inputs = c :: rest) (h : step s = .refused e) : ¬RunsOut s t := by
  unfold RunsOut
  rw [hi]
  intro hrun
  obtain ⟨u, hu, -⟩ := runsTo_succ.1 hrun
  exact nomatch h.symm.trans hu

/-- Settles O47: by induction on the stream, which goes on exactly over its legal cycles. -/
theorem legalStreamsRunToTheirEnd : Obligations.LegalStreamsRunToTheirEnd := by
  intro s
  induction hi : s.inputs generalizing s with
  | nil => exact iff_of_true ⟨s, runsOut_of_inputs_nil hi, hi⟩ trivial
  | cons c rest ih =>
    by_cases hlegal : LegalCycle s c
    · obtain ⟨u, hu⟩ := step_of_legalCycle hi hlegal
      obtain ⟨c', hi'⟩ := step_inputs hu
      have hrest : u.inputs = rest := (List.cons.inj (hi'.symm.trans hi)).2
      calc (∃ t, RunsOut s t ∧ t.inputs = [])
          ↔ ∃ t, RunsOut u t ∧ t.inputs = [] := by simp only [runsOut_step hu]
        _ ↔ SourceMeetsDuty u.params.wIdx u.followed rest := ih u hrest
        _ ↔ SourceMeetsDuty s.params.wIdx s.followed (c :: rest) :=
          (sourceMeetsDuty_step hi hlegal hu).symm
    · obtain ⟨e, he⟩ := step_of_not_legalCycle hi hlegal
      exact iff_of_false (fun ⟨t, hrun, _⟩ => not_runsOut_of_refused hi he hrun)
        (hlegal ∘ legalCycle_of_sourceMeetsDuty)

end Sys2Proof.Machine
end
